-- ==== Sys2Proof/Word.lean ====
section
/-! DEFINITION. The word types of the block and the index ranges of its address spaces (00_scope.md R10, R11, R13). -/

namespace Sys2Proof

/-- A command word: one 32-bit value, bit 0 least significant (R61, R47). -/
abbrev Word := BitVec 32

/-- One frame-buffer line; `LINE_W` is exactly 6 bits (R11). -/
abbrev Line := BitVec 6

/-- A Pattern, `PAT_W` = 7 bits, one per segment (R10, R84). -/
abbrev Pattern := BitVec 7

/-- The `pos` operand, 4 bits; only 0..2 are digit positions (R63, R64). -/
abbrev Position := BitVec 4

/-- A character code, 21 bits, every value valid (R65, R80). -/
abbrev CharCode := BitVec 21

/-- A COM line index, `NUM_COM` = 4 (R10). -/
abbrev ComIndex := Fin 4

/-- A pin offset, `PINS_PER_DIGIT` = 2 (R10). -/
abbrev PinOffset := Fin 2

/-- A digit position in the source's sense, `NUM_DIGIT` = 3, 0 the leftmost cell (R10, R17). -/
abbrev DigitPos := Fin 3

/-- The absolute bit index within a line (R17, R42). -/
abbrev BitIndex := Fin 6

end Sys2Proof
end

