-- ==== Sys2Proof/Syntax.lean ====
section
/-! DEFINITION. The commands of the block, one constructor per row of the opcode table (30_encoding.md R60, R66). -/

namespace Sys2Proof

/-- The abstract commands of R60. The table gives the reserved opcodes two rows, so `Reserved op` of R60 is
`reserved7` for op 7 and `reserved8to15 op` for op 8..15 (R66). -/
inductive Instr where
  /-- NOP (R130). -/
  | nop
  /-- CLEAR (R100). -/
  | clear
  /-- SET_PATTERN pos, pat (R104). -/
  | setPattern (pos : Position) (pat : Pattern)
  /-- SET_CHAR pos, ch (R110). -/
  | setChar (pos : Position) (ch : CharCode)
  /-- LOOKUP ch (R88). -/
  | lookup (ch : CharCode)
  /-- READ_LINE com (R115). -/
  | readLine (com : BitVec 2)
  /-- FLUSH (R132). -/
  | flush
  /-- The reserved opcode 7 (R135). -/
  | reserved7
  /-- A reserved opcode 8..15 (R135). -/
  | reserved8to15 (op : BitVec 4)
deriving DecidableEq, Repr

end Sys2Proof
end

