-- ==== Sys2Proof/WellFormed.lean ====
section
/-! DEFINITION. Which abstract commands are well formed. -/

namespace Sys2Proof

/-- Every operand value of a named command is valid (R63, R64, R65): its type is its range. The one check left is that
the row `RESERVED_8_15` holds an opcode 8..15 (R60, R66). -/
def Instr.wellFormed : Instr → Bool
  | .nop => true
  | .clear => true
  | .setPattern _ _ => true
  | .setChar _ _ => true
  | .lookup _ => true
  | .readLine _ => true
  | .flush => true
  | .reserved7 => true
  | .reserved8to15 op => decide (8 ≤ op.toNat)

end Sys2Proof
end

