-- ==== Sys2Proof/Decode.lean ====
section
/-! DEFINITION. The decoder of command words, the encoder, and the opcode map as data (30_encoding.md R61 to R70). -/

namespace Sys2Proof

/-- `op = word[31:28]` (R63). -/
def opField (w : Word) : BitVec 4 := w.extractLsb' 28 4

/-- `pos = word[27:24]` (R63). -/
def posField (w : Word) : Position := w.extractLsb' 24 4

/-- `pat = word[6:0]` (R63). -/
def patField (w : Word) : Pattern := w.extractLsb' 0 7

/-- `ch = word[20:0]` (R63). -/
def chField (w : Word) : CharCode := w.extractLsb' 0 21

/-- `com = word[25:24]` (R63). -/
def comField (w : Word) : BitVec 2 := w.extractLsb' 24 2

/-- The command a word stands for, by its `op` field alone; total on all words, so nothing is rejected (R66, R67). -/
def decode (w : Word) : Instr :=
  match (opField w).toNat with
  | 0 => .nop
  | 1 => .clear
  | 2 => .setPattern (posField w) (patField w)
  | 3 => .setChar (posField w) (chField w)
  | 4 => .lookup (chField w)
  | 5 => .readLine (comField w)
  | 6 => .flush
  | 7 => .reserved7
  | _ => .reserved8to15 (opField w)

/-- The opcode of a command (R66). -/
def Instr.opcode : Instr → BitVec 4
  | .nop => 0x0#4
  | .clear => 0x1#4
  | .setPattern _ _ => 0x2#4
  | .setChar _ _ => 0x3#4
  | .lookup _ => 0x4#4
  | .readLine _ => 0x5#4
  | .flush => 0x6#4
  | .reserved7 => 0x7#4
  | .reserved8to15 op => op

/-- The word of a command, ignored bits written as 0, laid out by the formats B, PP, PC, C and L (R62, R66). -/
def encode : Instr → Word
  | .nop => 0x0#4 ++ 0#28
  | .clear => 0x1#4 ++ 0#28
  | .setPattern pos pat => 0x2#4 ++ pos ++ 0#17 ++ pat
  | .setChar pos ch => 0x3#4 ++ pos ++ 0#3 ++ ch
  | .lookup ch => 0x4#4 ++ 0#7 ++ ch
  | .readLine com => 0x5#4 ++ 0#2 ++ com ++ 0#24
  | .flush => 0x6#4 ++ 0#28
  | .reserved7 => 0x7#4 ++ 0#28
  | .reserved8to15 op => op ++ 0#28

/-- The bits of a word that its format does not ignore (R62): a bit marked `-` there is 0 here. -/
def formatMask (w : Word) : Word :=
  match (opField w).toNat with
  | 2 => 0xFF00007F#32
  | 3 => 0xFF1FFFFF#32
  | 4 => 0xF01FFFFF#32
  | 5 => 0xF3000000#32
  | _ => 0xF0000000#32

/-- One row of the opcode map of R66. -/
structure OpcodeRow where
  mnemonic : String
  matchBits : Word
  maskBits : Word
deriving DecidableEq, Repr

/-- The opcode map of R66, the reserved range in two rows. -/
def opcodeRows : List OpcodeRow :=
  [⟨"NOP", 0x00000000#32, 0xF0000000#32⟩,
   ⟨"CLEAR", 0x10000000#32, 0xF0000000#32⟩,
   ⟨"SET_PATTERN", 0x20000000#32, 0xF0000000#32⟩,
   ⟨"SET_CHAR", 0x30000000#32, 0xF0000000#32⟩,
   ⟨"LOOKUP", 0x40000000#32, 0xF0000000#32⟩,
   ⟨"READ_LINE", 0x50000000#32, 0xF0000000#32⟩,
   ⟨"FLUSH", 0x60000000#32, 0xF0000000#32⟩,
   ⟨"RESERVED_7", 0x70000000#32, 0xF0000000#32⟩,
   ⟨"RESERVED_8_15", 0x80000000#32, 0x80000000#32⟩]

/-- A word matches a row when its masked bits are the row's (R66). -/
def OpcodeRow.accepts (r : OpcodeRow) (w : Word) : Bool := w &&& r.maskBits == r.matchBits

/-- The mnemonic of a command, as the opcode map spells it (R66). -/
def Instr.mnemonic : Instr → String
  | .nop => "NOP"
  | .clear => "CLEAR"
  | .setPattern _ _ => "SET_PATTERN"
  | .setChar _ _ => "SET_CHAR"
  | .lookup _ => "LOOKUP"
  | .readLine _ => "READ_LINE"
  | .flush => "FLUSH"
  | .reserved7 => "RESERVED_7"
  | .reserved8to15 _ => "RESERVED_8_15"

/-- The command word whose low `nbits` bits are `w` and whose other bits are 0. A command is one 32-bit word with no
byte order (R61, R47). -/
def tableWord (nbits w : Nat) : Word := BitVec.ofNat 32 (w % 2 ^ nbits)

/-- What the decoder reads from a table row's word; there is no command longer than one word (R61). -/
def decodeTableWord (nbits w : Nat) : Option Instr :=
  if nbits ≤ 32 then some (decode (tableWord nbits w)) else none

end Sys2Proof
end

