-- ==== Sys2Proof/Config.lean ====
section
/-! DEFINITION. What an implementation fixes: the two read-only tables and the peripheral's width, all OPEN in the spec
(00_scope.md R12, 92_eei_decisions.md D11 to D13), and the free value of an abandoned FLUSH. -/

namespace Sys2Proof

/-- The closed type of the seven segments (R16). -/
inductive Segment where
  | a | b | c | d | e | f | g
deriving DecidableEq, Repr

/-- A (com, pin) pair (R40): one of the eight slots of R45. -/
structure Slot where
  com : ComIndex
  pin : PinOffset
deriving DecidableEq, Repr, Inhabited

/-- Any assignment of slots to segments, admissible or not. -/
structure GeomTable where
  a : Slot
  b : Slot
  c : Slot
  d : Slot
  e : Slot
  f : Slot
  g : Slot
deriving DecidableEq, Repr

/-- GEOM-INJ (R41): no two segments share a slot. -/
abbrev GeomTable.Inj (t : GeomTable) : Prop := [t.a, t.b, t.c, t.d, t.e, t.f, t.g].Nodup

/-- An admissible `GEOM`: a table with the proof that it satisfies GEOM-INJ, so that an instance violating it cannot be
built (R41). The default entries are the example `GEOM_EX` of R56; they only show that the type is inhabited. -/
structure Geometry where
  table : GeomTable := ⟨⟨0, 0⟩, ⟨0, 1⟩, ⟨2, 1⟩, ⟨3, 0⟩, ⟨2, 0⟩, ⟨1, 0⟩, ⟨1, 1⟩⟩
  inj : table.Inj := by decide
deriving DecidableEq, Repr, Inhabited

/-- The glyph ROM: one Pattern for each of the 21 supported characters, no constraint on any (R81). -/
structure GlyphRom where
  digit0 : Pattern
  digit1 : Pattern
  digit2 : Pattern
  digit3 : Pattern
  digit4 : Pattern
  digit5 : Pattern
  digit6 : Pattern
  digit7 : Pattern
  digit8 : Pattern
  digit9 : Pattern
  letterA : Pattern
  letterB : Pattern
  letterC : Pattern
  letterD : Pattern
  letterE : Pattern
  letterF : Pattern
  letterR : Pattern
  letterO : Pattern
  letterN : Pattern
  letterT : Pattern
  dash : Pattern
deriving DecidableEq, Repr, Inhabited

/-- `PERIPH_W`, at least 6 (R133): held as the number of bits beyond 6. -/
structure PeriphWidth where
  extra : Nat
deriving DecidableEq, Repr, Inhabited

/-- The width in bits. -/
abbrev PeriphWidth.bits (w : PeriphWidth) : Nat := 6 + w.extra

namespace Config

/-- The panel's segment wiring. OPEN: any GEOM-INJ instance (R41, D12). -/
opaque geom : Geometry

/-- The glyph ROM contents. OPEN: any contents (R81, D13). -/
opaque glyph : GlyphRom

/-- The peripheral's width. OPEN: any width of at least 6 (R133, D11). -/
opaque periphW : PeriphWidth

/-- Free value: how many of its five events the n-th FLUSH abandoned by a reset had emitted (93_implementation_defined.md
I12: any value for the event prefix). -/
opaque abandonedFlushEvents : Nat → Fin 6

end Config

end Sys2Proof
end

