-- ==== Sys2Proof/Machine/State.lean ====
section
/-! DEFINITION. The state of the block (10_state.md), its outputs, the inputs the host presents, the reasons a step could
stop, and the state after reset (R32, R170). -/

namespace Sys2Proof.Machine

/-- The frame buffer: four 6-bit lines, one per COM line (R20). -/
structure FrameBuffer where
  line0 : Line
  line1 : Line
  line2 : Line
  line3 : Line
deriving DecidableEq, Repr

/-- All four lines 0 (R32). -/
def FrameBuffer.zero : FrameBuffer := ⟨0, 0, 0, 0⟩

/-- The response of a command (R25). -/
inductive Response where
  /-- `NONE`. -/
  | none
  /-- `PAT(p)`. -/
  | pat (p : Pattern)
  /-- `LINE(v)`. -/
  | line (v : Line)
deriving DecidableEq, Repr

/-- An event sent to the peripheral (R132); `bits` is as wide as the peripheral (R133). -/
inductive PeriphEvent where
  | writeLine (com : ComIndex) (width : Nat) (bits : BitVec width)
  | submitFrame
deriving DecidableEq, Repr

/-- One interaction of the host with the block (R136). -/
inductive HostInput where
  /-- A command word presented on the port. -/
  | command (w : Word)
  /-- Reset, asserted and released while no command is in progress (R170). -/
  | reset
  /-- A command word, and a reset that arrives while that command is in progress (R156). -/
  | resetDuring (w : Word)
deriving DecidableEq, Repr

/-- The block's state with its boundary. -/
structure State where
  /-- The frame buffer `FB`, the block's one piece of mutable state (R20). -/
  fb : FrameBuffer
  /-- The read-only segment geometry `GEOM` (R24). -/
  geom : Geometry
  /-- The read-only glyph ROM `GLYPH` (R24). -/
  glyph : GlyphRom
  /-- The peripheral's width `PERIPH_W`, a build parameter (R133). -/
  periphW : PeriphWidth
  /-- The response channel: what the last step's transaction responded, if it was a command (R25, R32). -/
  response : Option Response
  /-- Every event emitted to the peripheral since power-up, oldest first (R32, R132). -/
  events : List PeriphEvent
  /-- MODEL's own: the inputs the host has yet to present, next first (R52, R136). -/
  port : List HostInput
  /-- MODEL's own: how many free values have been used (R156, I12). -/
  freeCount : Nat
deriving DecidableEq, Repr

/-- Why the machine stops with a fault: no reason exists, because no command raises an exception, trap, fault or error
(R150). -/
inductive Fault where
deriving DecidableEq, Repr

/-- Why an instruction has no meaning. -/
inductive Refusal where
  /-- Raised by an arm of `exec` for an instruction not modelled yet; no arm raises it now. Safe: the model stops. -/
  | notModelled (mnemonic : String)
deriving DecidableEq, Repr

/-- The state after reset of a block built with the given tables: every line 0, nothing pending on the response channel,
nothing emitted (R32, R170, R171). -/
def State.resetWith (geom : Geometry) (glyph : GlyphRom) (periphW : PeriphWidth) : State where
  fb := FrameBuffer.zero
  geom := geom
  glyph := glyph
  periphW := periphW
  response := .none
  events := []
  port := []
  freeCount := 0

/-- The block right after power-up or reset, with the OPEN tables it was built with (R32, R162). -/
def State.reset : State := State.resetWith Config.geom Config.glyph Config.periphW

end Sys2Proof.Machine
end

