-- ==== Sys2Proof/Machine/Operands.lean ====
section
/-! DEFINITION. What a command computes from its operands and the read-only tables alone: the digit position, the
address of a segment's bit (20_memory.md), Patterns and the glyph function (40_glyph_lookup.md). -/

namespace Sys2Proof.Machine

/-- The segments in index order (R15, R16). -/
def segments : List Segment := [.a, .b, .c, .d, .e, .f, .g]

/-- `index(s)` (R16). -/
def segmentIndex : Segment → Fin 7
  | .a => 0
  | .b => 1
  | .c => 2
  | .d => 3
  | .e => 4
  | .f => 5
  | .g => 6

/-- The entry of a segment in a table of slots, admissible or not. -/
def tableSlot (t : GeomTable) : Segment → Slot
  | .a => t.a
  | .b => t.b
  | .c => t.c
  | .d => t.d
  | .e => t.e
  | .f => t.f
  | .g => t.g

/-- `GEOM(s)` (R40). -/
def slotOf (geom : Geometry) (s : Segment) : Slot := tableSlot geom.table s

/-- The `GEOM` instance given by a table; a table that violates GEOM-INJ is rejected (R41). -/
def geometryOf (t : GeomTable) : Option Geometry :=
  if h : t.Inj then some ⟨t, h⟩ else none

/-- The digit position a `pos` operand names; a position outside 0..2 names none (R64, R104). -/
def digitPos? (pos : Position) : Option DigitPos :=
  if h : pos.toNat < 3 then some ⟨pos.toNat, h⟩ else none

/-- `((2 - d) * 2) + pin`, defined for digit positions only (R42). -/
def bitIndex (d : DigitPos) (pin : PinOffset) : BitIndex :=
  ⟨(2 - d.val) * 2 + pin.val, by omega⟩

/-- A frame-buffer address: a line and a bit of it (R31, R42). -/
structure BitAddr where
  com : ComIndex
  bit : BitIndex
deriving DecidableEq, Repr

/-- `addr(s, d)` (R42). -/
def addr (geom : Geometry) (s : Segment) (d : DigitPos) : BitAddr :=
  ⟨(slotOf geom s).com, bitIndex d (slotOf geom s).pin⟩

/-- `Own(d)`: the bits of digit position d (R46). -/
def owns (d : DigitPos) (a : BitAddr) : Bool :=
  a.bit.val == (2 - d.val) * 2 || a.bit.val == (2 - d.val) * 2 + 1

/-- The line a `com` operand names; every value names one (R63). -/
def comIndex (com : BitVec 2) : ComIndex := ⟨com.toNat, com.isLt⟩

/-- Whether a Pattern has a segment active: bit `index(s)` (R84). -/
def segmentOn (p : Pattern) (s : Segment) : Bool := p.getLsbD (segmentIndex s).val

/-- The Pattern of a segment set: the OR of `1 << index(s)` (R84). -/
def patternOf (ss : List Segment) : Pattern :=
  ss.foldr (fun s p => (1#7 <<< (segmentIndex s).val) ||| p) 0#7

/-- The blank Pattern (R17, R84). -/
def blankPattern : Pattern := 0#7

/-- The 21 canonical characters `SUPPORTED` (R81). -/
inductive SupportedChar where
  | digit0 | digit1 | digit2 | digit3 | digit4 | digit5 | digit6 | digit7 | digit8 | digit9
  | letterA | letterB | letterC | letterD | letterE | letterF
  | letterR | letterO | letterN | letterT
  | dash
deriving DecidableEq, Repr

/-- The members of `SUPPORTED` (R81). -/
def supportedChars : List SupportedChar :=
  [.digit0, .digit1, .digit2, .digit3, .digit4, .digit5, .digit6, .digit7, .digit8, .digit9,
   .letterA, .letterB, .letterC, .letterD, .letterE, .letterF,
   .letterR, .letterO, .letterN, .letterT, .dash]

/-- The code of a supported character (R81). -/
def supportedCode : SupportedChar → CharCode
  | .digit0 => 0x30#21
  | .digit1 => 0x31#21
  | .digit2 => 0x32#21
  | .digit3 => 0x33#21
  | .digit4 => 0x34#21
  | .digit5 => 0x35#21
  | .digit6 => 0x36#21
  | .digit7 => 0x37#21
  | .digit8 => 0x38#21
  | .digit9 => 0x39#21
  | .letterA => 0x41#21
  | .letterB => 0x42#21
  | .letterC => 0x43#21
  | .letterD => 0x44#21
  | .letterE => 0x45#21
  | .letterF => 0x46#21
  | .letterR => 0x52#21
  | .letterO => 0x4F#21
  | .letterN => 0x4E#21
  | .letterT => 0x54#21
  | .dash => 0x2D#21

/-- `GLYPH(k)` (R81). -/
def glyphOf (rom : GlyphRom) : SupportedChar → Pattern
  | .digit0 => rom.digit0
  | .digit1 => rom.digit1
  | .digit2 => rom.digit2
  | .digit3 => rom.digit3
  | .digit4 => rom.digit4
  | .digit5 => rom.digit5
  | .digit6 => rom.digit6
  | .digit7 => rom.digit7
  | .digit8 => rom.digit8
  | .digit9 => rom.digit9
  | .letterA => rom.letterA
  | .letterB => rom.letterB
  | .letterC => rom.letterC
  | .letterD => rom.letterD
  | .letterE => rom.letterE
  | .letterF => rom.letterF
  | .letterR => rom.letterR
  | .letterO => rom.letterO
  | .letterN => rom.letterN
  | .letterT => rom.letterT
  | .dash => rom.dash

/-- `fold(ch)`: ASCII lower case to upper case, every other code unchanged (R82). -/
def foldCase (ch : CharCode) : CharCode :=
  if 0x61 ≤ ch.toNat ∧ ch.toNat ≤ 0x7A then ch - 0x20#21 else ch

/-- The supported character with a given code, if there is one (R82). -/
def supported? (ch : CharCode) : Option SupportedChar :=
  supportedChars.find? (fun k => supportedCode k == ch)

/-- The glyph function `lookup(ch)` (R82): total, blank for every unsupported code (R83). -/
def glyphLookup (rom : GlyphRom) (ch : CharCode) : Pattern :=
  match supported? (foldCase ch) with
  | some k => glyphOf rom k
  | none => blankPattern

end Sys2Proof.Machine
end

