-- ==== Sys2Proof/Machine/Ops.lean ====
section
/-! DEFINITION. The shared operations over the frame buffer, the response channel and the event stream, and what a reset
does. The block takes no exception (60_exceptions.md R150, R153), so there is no operation for one. -/

namespace Sys2Proof.Machine

/-- `FB[c]` (R15). -/
def FrameBuffer.line (fb : FrameBuffer) (c : ComIndex) : Line :=
  match c with
  | 0 => fb.line0
  | 1 => fb.line1
  | 2 => fb.line2
  | 3 => fb.line3

/-- `FB[c] <- v` (R15). -/
def FrameBuffer.setLine (fb : FrameBuffer) (c : ComIndex) (v : Line) : FrameBuffer :=
  match c with
  | 0 => { fb with line0 := v }
  | 1 => { fb with line1 := v }
  | 2 => { fb with line2 := v }
  | 3 => { fb with line3 := v }

/-- A line with one bit set or cleared, all other bits kept (R15). -/
def setLineBit (v : Line) (b : BitIndex) (on : Bool) : Line :=
  if on then v ||| (1#6 <<< b.val) else v &&& ~~~(1#6 <<< b.val)

/-- `FB[c][b]` (R15). -/
def FrameBuffer.bit (fb : FrameBuffer) (a : BitAddr) : Bool := (fb.line a.com).getLsbD a.bit.val

/-- `FB[c][b] <- on` (R15). -/
def FrameBuffer.setBit (fb : FrameBuffer) (a : BitAddr) (on : Bool) : FrameBuffer :=
  fb.setLine a.com (setLineBit (fb.line a.com) a.bit on)

/-- The scatter of a Pattern into the cell of one digit position, segment after segment (R104). -/
def writeCell (geom : Geometry) (d : DigitPos) (pat : Pattern) (fb : FrameBuffer) : FrameBuffer :=
  segments.foldl (fun fb s => fb.setBit (addr geom s d) (segmentOn pat s)) fb

/-- The cell read-back function `cell(FB, d)` (R107). -/
def cell (geom : Geometry) (fb : FrameBuffer) (d : DigitPos) : Pattern :=
  patternOf (segments.filter (fun s => fb.bit (addr geom s d)))

/-- All four lines to 0 (R100). -/
def clearLines (s : State) : State :=
  { s with fb := ((((s.fb.setLine 0 0#6).setLine 1 0#6).setLine 2 0#6).setLine 3 0#6) }

/-- `respond(r)`: put the command's one response on the response channel (R15, R25). -/
def respond (r : Response) (s : State) : State := { s with response := some r }

/-- `emit`: send events to the peripheral, in order (R15, R132). -/
def emit (es : List PeriphEvent) (s : State) : State := { s with events := s.events ++ es }

/-- The state part of SET_PATTERN and SET_CHAR: the scatter, or nothing for a position outside 0..2 (R104, R105). -/
def putPattern (pos : Position) (pat : Pattern) (s : State) : State :=
  match digitPos? pos with
  | some d => { s with fb := writeCell s.geom d pat s.fb }
  | none => s

/-- `write_line(c, zext_W(FB[c]))` (R132, R133). -/
def lineEvent (s : State) (c : ComIndex) : PeriphEvent :=
  .writeLine c s.periphW.bits ((s.fb.line c).setWidth s.periphW.bits)

/-- The five events of FLUSH, from one snapshot of the frame buffer, in ascending COM order (R132, R134). -/
def flushEvents (s : State) : List PeriphEvent :=
  [lineEvent s 0, lineEvent s 1, lineEvent s 2, lineEvent s 3, .submitFrame]

/-- Between commands the block is idle: the frame buffer keeps its value (R162), and no response is on the channel, since
one does not persist (R25). -/
def idle (s : State) : State := { s with response := .none }

/-- Reset: every line 0, no response, no event; the tables are constants (R32, R170). -/
def takeReset (s : State) : State := { clearLines s with response := .none }

/-- What a command abandoned by a reset had already sent to the peripheral: a FLUSH, any prefix of its events
(93_implementation_defined.md I12); any other command, nothing. -/
def emitAbandoned (i : Instr) (s : State) : State :=
  match i with
  | .flush =>
    { emit ((flushEvents s).take (Config.abandonedFlushEvents s.freeCount).val) s with freeCount := s.freeCount + 1 }
  | .nop => s
  | .clear => s
  | .setPattern _ _ => s
  | .setChar _ _ => s
  | .lookup _ => s
  | .readLine _ => s
  | .reserved7 => s
  | .reserved8to15 _ => s

/-- A reset that arrives while a command is in progress abandons the command: no response, frame buffer 0 (R156, R170). -/
def takeResetDuring (i : Instr) (s : State) : State := takeReset (emitAbandoned i s)

end Sys2Proof.Machine
end

