-- ==== Sys2Proof/Machine/FrameCommands.lean ====
section
/-! DEFINITION. The meanings of CLEAR, SET_PATTERN, SET_CHAR and READ_LINE (41_frame_buffer.md). -/

namespace Sys2Proof.Machine

/-- CLEAR: all four lines 0 (R100). -/
def execClear (s : State) : Host.Outcome State Fault Refusal :=
  .next (respond .none (clearLines s))

/-- SET_PATTERN: one Pattern into one cell; a position above 2 is a no-op (R104, R105). -/
def execSetPattern (pos : Position) (pat : Pattern) (s : State) : Host.Outcome State Fault Refusal :=
  .next (respond .none (putPattern pos pat s))

/-- SET_CHAR: SET_PATTERN applied to the looked-up Pattern (R89, R110). -/
def execSetChar (pos : Position) (ch : CharCode) (s : State) : Host.Outcome State Fault Refusal :=
  .next (respond .none (putPattern pos (glyphLookup s.glyph ch) s))

/-- READ_LINE: responds with one line and changes nothing (R115). -/
def execReadLine (com : BitVec 2) (s : State) : Host.Outcome State Fault Refusal :=
  .next (respond (.line (s.fb.line (comIndex com))) s)

end Sys2Proof.Machine
end

