-- ==== Sys2Proof/Machine/GlyphLookup.lean ====
section
/-! DEFINITION. The meaning of LOOKUP (40_glyph_lookup.md). -/

namespace Sys2Proof.Machine

/-- LOOKUP: responds with the character's Pattern and changes nothing (R88). -/
def execLookup (ch : CharCode) (s : State) : Host.Outcome State Fault Refusal :=
  .next (respond (.pat (glyphLookup s.glyph ch)) s)

end Sys2Proof.Machine
end

