-- ==== Sys2Proof/Machine/InterfaceControl.lean ====
section
/-! DEFINITION. The meanings of NOP, FLUSH and the reserved opcodes (42_interface_control.md). -/

namespace Sys2Proof.Machine

/-- NOP: does nothing (R130). -/
def execNop (s : State) : Host.Outcome State Fault Refusal :=
  .next (respond .none s)

/-- FLUSH: hands one snapshot of the frame buffer to the peripheral (R132). -/
def execFlush (s : State) : Host.Outcome State Fault Refusal :=
  .next (respond .none (emit (flushEvents s) s))

/-- The reserved opcode 7: no state change, no event (R135). -/
def execReserved7 (s : State) : Host.Outcome State Fault Refusal :=
  .next (respond .none s)

/-- A reserved opcode 8..15: no state change, no event, whatever the opcode (R135). -/
def execReserved8to15 (_op : BitVec 4) (s : State) : Host.Outcome State Fault Refusal :=
  .next (respond .none s)

end Sys2Proof.Machine
end

