-- ==== Sys2Proof/Machine/Dispatch.lean ====
section
/-! DEFINITION. One command, one meaning (30_encoding.md R60, R66). -/

namespace Sys2Proof.Machine

def exec (i : Instr) (s : State) : Host.Outcome State Fault Refusal :=
  match i with
  | .nop => Sys2Proof.Machine.execNop s
  | .clear => Sys2Proof.Machine.execClear s
  | .setPattern pos pat => Sys2Proof.Machine.execSetPattern pos pat s
  | .setChar pos ch => Sys2Proof.Machine.execSetChar pos ch s
  | .lookup ch => Sys2Proof.Machine.execLookup ch s
  | .readLine com => Sys2Proof.Machine.execReadLine com s
  | .flush => Sys2Proof.Machine.execFlush s
  | .reserved7 => Sys2Proof.Machine.execReserved7 s
  | .reserved8to15 op => Sys2Proof.Machine.execReserved8to15 op s

end Sys2Proof.Machine
end

