-- ==== Sys2Proof/Machine/Step.lean ====
section
/-! DEFINITION. One step: the block takes the next input the host presents, as one indivisible transaction (20_memory.md
R50, R52). -/

namespace Sys2Proof.Machine

/-- The block takes the next input from its port: a command is decoded and executed whole (R29, R50), a reset is taken
(R170), a reset during a command abandons it (R156); with nothing presented it is idle (R162). -/
def step (s : State) : Host.Outcome State Fault Refusal :=
  match s.port with
  | [] => .next (idle s)
  | .command w :: rest => exec (decode w) { s with port := rest }
  | .reset :: rest => .next (takeReset { s with port := rest })
  | .resetDuring w :: rest => .next (takeResetDuring (decode w) { s with port := rest })

/-- The state in which the host presents the given word next. The block fetches nothing (R27): its next instruction is
the next word on the command port. -/
def State.withFetchWord (s : State) (nbits w : Nat) : State :=
  { s with port := .command (tableWord nbits w) :: s.port }

end Sys2Proof.Machine
end

