-- ==== Sys2Proof/Machine/Assembler.lean ====
section
/-! DEFINITION. The assembler's abstract lines: operand spellings and their ranges, the pseudo-instructions, and the words
(30_encoding.md R68, R71, R72). -/

namespace Sys2Proof.Machine

/-- How `pat` is spelled: a number, or a segment set in braces (R71). -/
inductive PatSpelling where
  | number (n : Nat)
  | segmentSet (ss : List Segment)
deriving DecidableEq, Repr

/-- How `ch` is spelled: a quoted character, or a code point in hexadecimal (R71). -/
inductive ChSpelling where
  | quoted (c : Char)
  | codePoint (n : Nat)
deriving DecidableEq, Repr

/-- One line of assembler source: a command of R71 or a pseudo-instruction of R72, operands as written. -/
inductive AsmLine where
  | nop
  | clear
  | setPattern (pos : Nat) (pat : PatSpelling)
  | setChar (pos : Nat) (ch : ChSpelling)
  | lookup (ch : ChSpelling)
  | readLine (com : Nat)
  | flush
  | blank (pos : Nat)
  | fill (pos : Nat)
  | showChars (x y z : Char)
  | showFlush (x y z : Char)
  | readFrame
deriving DecidableEq, Repr

/-- A number written for an operand of a given width; the assembler refuses one out of its range (R71). -/
def asmField (width n : Nat) : Option (BitVec width) :=
  if n < 2 ^ width then some (BitVec.ofNat width n) else none

/-- The value of a `pat` operand (R71, R84). -/
def asmPat : PatSpelling → Option Pattern
  | .number n => asmField 7 n
  | .segmentSet ss => some (patternOf ss)

/-- The value of a `ch` operand: the character's code point (R71). -/
def asmCh : ChSpelling → Option CharCode
  | .quoted c => asmField 21 c.toNat
  | .codePoint n => asmField 21 n

/-- `SET_PATTERN pos, pat` (R71). -/
def asmSetPattern (pos : Nat) (pat : PatSpelling) : Option Instr := do
  let pos ← asmField 4 pos
  let pat ← asmPat pat
  return .setPattern pos pat

/-- `SET_CHAR pos, ch` (R71). -/
def asmSetChar (pos : Nat) (ch : ChSpelling) : Option Instr := do
  let pos ← asmField 4 pos
  let ch ← asmCh ch
  return .setChar pos ch

/-- `SHOW "xyz"`: the three characters at positions 0, 1, 2 (R72). -/
def asmShow (x y z : Char) : Option (List Instr) := do
  let i ← asmSetChar 0 (.quoted x)
  let j ← asmSetChar 1 (.quoted y)
  let k ← asmSetChar 2 (.quoted z)
  return [i, j, k]

/-- The commands a line stands for, pseudo-instructions expanded (R71, R72); none where the assembler refuses an operand. -/
def assemble : AsmLine → Option (List Instr)
  | .nop => some [.nop]
  | .clear => some [.clear]
  | .setPattern pos pat => (asmSetPattern pos pat).map (fun i => [i])
  | .setChar pos ch => (asmSetChar pos ch).map (fun i => [i])
  | .lookup ch => (asmCh ch).map (fun ch => [.lookup ch])
  | .readLine com => (asmField 2 com).map (fun com => [.readLine com])
  | .flush => some [.flush]
  | .blank pos => (asmSetPattern pos (.number 0)).map (fun i => [i])
  | .fill pos => (asmSetPattern pos (.number 0x7F)).map (fun i => [i])
  | .showChars x y z => asmShow x y z
  | .showFlush x y z => (asmShow x y z).map (fun is => is ++ [.flush])
  | .readFrame => some [.readLine 0, .readLine 1, .readLine 2, .readLine 3]

/-- The word the assembler writes for a command, ignored bits 0; it refuses the reserved opcodes (R66, R68, R71). -/
def asmWord : Instr → Option Word
  | .nop => some (encode .nop)
  | .clear => some (encode .clear)
  | .setPattern pos pat => some (encode (.setPattern pos pat))
  | .setChar pos ch => some (encode (.setChar pos ch))
  | .lookup ch => some (encode (.lookup ch))
  | .readLine com => some (encode (.readLine com))
  | .flush => some (encode .flush)
  | .reserved7 => none
  | .reserved8to15 _ => none

/-- The words of a list of commands; none if the assembler refuses one of them. -/
def asmWords : List Instr → Option (List Word)
  | [] => some []
  | i :: is => do
    let w ← asmWord i
    let ws ← asmWords is
    return w :: ws

/-- The words of a line (R71, R72). -/
def assembleWords (l : AsmLine) : Option (List Word) := (assemble l).bind asmWords

end Sys2Proof.Machine
end

