-- ==== Sys2Proof/Machine/AssemblerText.lean ====
section
/-! DEFINITION. The written form of the assembler's lines: the mnemonic, then its operands separated by commas; a `;` starts
a comment (30_encoding.md R71, R72). What R71 leaves open of the spelling is log entry 13. -/

namespace Sys2Proof.Machine

/-- A lexical token of a line. -/
inductive AsmToken where
  | word (cs : List Char)
  | quotedChar (c : Char)
  | window (x y z : Char)
  | comma
  | openBrace
  | closeBrace
deriving DecidableEq, Repr

/-- The word read so far (its letters in reverse) put before the tokens that follow it. -/
def endWord (acc : List Char) (ts : List AsmToken) : List AsmToken :=
  match acc with
  | [] => ts
  | c :: cs => .word (c :: cs).reverse :: ts

/-- The token of a punctuation character; the braces are characters 0x7B and 0x7D. -/
def punctuation? (c : Char) : Option AsmToken :=
  if c.toNat = 0x2C then some .comma
  else if c.toNat = 0x7B then some .openBrace
  else if c.toNat = 0x7D then some .closeBrace
  else none

/-- Whether a character separates tokens: a space or a tab. -/
def isBlank (c : Char) : Bool := c.toNat == 0x20 || c.toNat == 0x09

/-- The tokens of a line, up to a comment; `acc` holds the word being read, in reverse. A quote opens only a whole quoted
character or a whole three-character window; any other quote makes the line unreadable. -/
def tokens (acc : List Char) : List Char → Option (List AsmToken)
  | [] => some (endWord acc [])
  | ';' :: _ => some (endWord acc [])
  | '\'' :: c :: '\'' :: rest => (tokens [] rest).map (fun ts => endWord acc (.quotedChar c :: ts))
  | '"' :: x :: y :: z :: '"' :: rest => (tokens [] rest).map (fun ts => endWord acc (.window x y z :: ts))
  | c :: rest =>
    if c.toNat = 0x27 ∨ c.toNat = 0x22 then none
    else if isBlank c then (tokens [] rest).map (endWord acc)
    else match punctuation? c with
      | some t => (tokens [] rest).map (fun ts => endWord acc (t :: ts))
      | none => tokens (c :: acc) rest

/-- The value of a digit below a base (10 or 16). -/
def digitValue? (base : Nat) (c : Char) : Option Nat :=
  let n := c.toNat
  let v := if 0x30 ≤ n ∧ n ≤ 0x39 then n - 0x30
    else if 0x41 ≤ n ∧ n ≤ 0x46 then n - 0x37
    else if 0x61 ≤ n ∧ n ≤ 0x66 then n - 0x57
    else base
  if v < base then some v else none

/-- The value of digits that follow a value already read. -/
def digitsFrom (base : Nat) (v : Nat) : List Char → Option Nat
  | [] => some v
  | c :: cs => (digitValue? base c).bind (fun x => digitsFrom base (v * base + x) cs)

/-- The value of one or more digits. -/
def digits? (base : Nat) : List Char → Option Nat
  | [] => none
  | c :: cs => digitsFrom base 0 (c :: cs)

/-- A `pat` number: decimal, or hexadecimal after `0x` (R71). -/
def patNumber? : List Char → Option Nat
  | '0' :: 'x' :: cs => digits? 16 cs
  | cs => digits? 10 cs

/-- A segment's name (R16). -/
def segmentName? : List Char → Option Segment
  | ['a'] => some .a
  | ['b'] => some .b
  | ['c'] => some .c
  | ['d'] => some .d
  | ['e'] => some .e
  | ['f'] => some .f
  | ['g'] => some .g
  | _ => none

/-- The rest of a segment set after a member: a comma and a further member, or the closing brace, which ends the line. -/
def segmentSetRest : List AsmToken → Option (List Segment)
  | [.closeBrace] => some []
  | .comma :: .word cs :: ts => do
    let s ← segmentName? cs
    let ss ← segmentSetRest ts
    return s :: ss
  | _ => none

/-- A `pat` operand (R71). -/
def patOperand? : List AsmToken → Option PatSpelling
  | [.word cs] => (patNumber? cs).map .number
  | [.openBrace, .closeBrace] => some (.segmentSet [])
  | .openBrace :: .word cs :: ts => do
    let s ← segmentName? cs
    let ss ← segmentSetRest ts
    return .segmentSet (s :: ss)
  | _ => none

/-- A `ch` operand: a quoted character, or `U+` and hexadecimal digits (R71). -/
def chOperand? : List AsmToken → Option ChSpelling
  | [.quotedChar c] => some (.quoted c)
  | [.word ('U' :: '+' :: cs)] => (digits? 16 cs).map .codePoint
  | _ => none

/-- `NAME pos, pat` or `NAME pos, ch`: the decimal first operand and the tokens of the second. -/
def firstOperand? : List AsmToken → Option (Nat × List AsmToken)
  | .word cs :: .comma :: ts => (digits? 10 cs).map (fun n => (n, ts))
  | _ => none

/-- A single decimal operand: `pos` of BLANK and FILL, `com` of READ_LINE (R71, R72). -/
def decimalOperand? : List AsmToken → Option Nat
  | [.word cs] => digits? 10 cs
  | _ => none

/-- The line of a mnemonic and its operand tokens (R71, R72). -/
def parseCommand (name : List Char) (ts : List AsmToken) : Option AsmLine :=
  if name = ['N', 'O', 'P'] then if ts = [] then some .nop else none
  else if name = ['C', 'L', 'E', 'A', 'R'] then if ts = [] then some .clear else none
  else if name = ['S', 'E', 'T', '_', 'P', 'A', 'T', 'T', 'E', 'R', 'N'] then do
    let (pos, rest) ← firstOperand? ts
    let pat ← patOperand? rest
    return .setPattern pos pat
  else if name = ['S', 'E', 'T', '_', 'C', 'H', 'A', 'R'] then do
    let (pos, rest) ← firstOperand? ts
    let ch ← chOperand? rest
    return .setChar pos ch
  else if name = ['L', 'O', 'O', 'K', 'U', 'P'] then (chOperand? ts).map .lookup
  else if name = ['R', 'E', 'A', 'D', '_', 'L', 'I', 'N', 'E'] then (decimalOperand? ts).map .readLine
  else if name = ['F', 'L', 'U', 'S', 'H'] then if ts = [] then some .flush else none
  else if name = ['B', 'L', 'A', 'N', 'K'] then (decimalOperand? ts).map .blank
  else if name = ['F', 'I', 'L', 'L'] then (decimalOperand? ts).map .fill
  else if name = ['S', 'H', 'O', 'W'] then
    match ts with
    | [.window x y z] => some (.showChars x y z)
    | _ => none
  else if name = ['S', 'H', 'O', 'W', 'F'] then
    match ts with
    | [.window x y z] => some (.showFlush x y z)
    | _ => none
  else if name = ['R', 'E', 'A', 'D', '_', 'F', 'R', 'A', 'M', 'E'] then if ts = [] then some .readFrame else none
  else none

/-- A line of source text: `some none` for a line that holds no command (empty, or a comment), `none` for a line the
assembler cannot read (R71). -/
def parseLine (text : List Char) : Option (Option AsmLine) :=
  match tokens [] text with
  | some [] => some none
  | some (.word name :: ts) => (parseCommand name ts).map some
  | _ => none

/-- The words of a line of source text; none where the assembler refuses the line (R71). -/
def assembleText (text : List Char) : Option (List Word) :=
  match parseLine text with
  | some none => some []
  | some (some l) => assembleWords l
  | none => none

/-- The lines of a source text, one command per line (R71), parted at the newline character 0x0A; `acc` holds the line
being read, in reverse. -/
def sourceLines (acc : List Char) : List Char → List (List Char)
  | [] => [acc.reverse]
  | c :: cs => if c.toNat = 0x0A then acc.reverse :: sourceLines [] cs else sourceLines (c :: acc) cs

/-- The words of a list of lines, in order; none if the assembler refuses one of them. -/
def assembleLines : List (List Char) → Option (List Word)
  | [] => some []
  | l :: ls => do
    let ws ← assembleText l
    let rest ← assembleLines ls
    return ws ++ rest

/-- The command words of a source text, in the order the host presents them (R71, R52). -/
def assembleSource (text : List Char) : Option (List Word) := assembleLines (sourceLines [] text)

end Sys2Proof.Machine
end

