-- ==== Sys2Proof/Machine/Examples.lean ====
section
/-! DEFINITION. The spec's example instances of the open parameters, used by its concrete test vectors only; they claim
nothing about the real panel (20_memory.md R56, 40_glyph_lookup.md R87). -/

namespace Sys2Proof.Machine

/-- `GEOM_EX` (R56). -/
def geomEx : Geometry where
  table :=
    { a := ⟨0, 0⟩, b := ⟨0, 1⟩, c := ⟨2, 1⟩, d := ⟨3, 0⟩, e := ⟨2, 0⟩, f := ⟨1, 0⟩, g := ⟨1, 1⟩ }
  inj := by decide

/-- `GLYPH_DEFAULT` (R87). -/
def glyphDefault : GlyphRom where
  digit0 := 0x3F#7
  digit1 := 0x06#7
  digit2 := 0x5B#7
  digit3 := 0x4F#7
  digit4 := 0x66#7
  digit5 := 0x6D#7
  digit6 := 0x7D#7
  digit7 := 0x07#7
  digit8 := 0x7F#7
  digit9 := 0x6F#7
  letterA := 0x77#7
  letterB := 0x7C#7
  letterC := 0x39#7
  letterD := 0x5E#7
  letterE := 0x79#7
  letterF := 0x71#7
  letterR := 0x50#7
  letterO := 0x5C#7
  letterN := 0x54#7
  letterT := 0x78#7
  dash := 0x40#7

end Sys2Proof.Machine
end

