-- ==== Sys2Proof/Safety.lean ====
section
/-! DEFINITION. What counts as a safe run, which states are reachable, and the properties claims are stated in. -/

namespace Sys2Proof.Machine

/-- Running a list of commands, each whole before the next (R29, R52). -/
def execAll : List Instr → State → Host.Outcome State Fault Refusal
  | [], s => .next s
  | i :: is, s =>
    match exec i s with
    | .next t => execAll is t
    | .fault r => .fault r
    | .refused r => .refused r

/-- A command that writes the cell of digit position d: SET_PATTERN or SET_CHAR at that position (R104, R110). -/
def WritesCell (i : Instr) (d : DigitPos) : Prop :=
  ∃ pos : Position, pos.toNat = d.val ∧ ((∃ pat, i = .setPattern pos pat) ∨ (∃ ch, i = .setChar pos ch))

/-- A command that writes no frame-buffer bit at any position: neither SET_PATTERN nor SET_CHAR (R101). -/
def NoCellWrite (i : Instr) : Prop :=
  (∀ pos pat, i ≠ .setPattern pos pat) ∧ (∀ pos ch, i ≠ .setChar pos ch)

/-- A run that never stops: no step of it faults or refuses (R150). -/
def NeverStops (s : State) : Prop := ∀ k, ∃ t, Host.Core.run Sys2Proof.core k s = .next t

/-- The states of every run from `start`: the host may present further inputs at any time, and the block steps. -/
inductive Reachable (start : State) : State → Prop where
  | start : Reachable start start
  | present {s : State} (ins : List HostInput) (h : Reachable start s) :
      Reachable start { s with port := s.port ++ ins }
  | step {s t : State} (h : Reachable start s) (next : step s = .next t) : Reachable start t

/-- A slot that no segment uses (R45). -/
def Unused (geom : Geometry) (u : Slot) : Prop := ∀ s, slotOf geom s ≠ u

/-- The three bits of every unused slot are 0 (R45, R116). -/
def UnusedBitsZero (geom : Geometry) (fb : FrameBuffer) : Prop :=
  ∀ u, Unused geom u → ∀ d, fb.bit ⟨u.com, bitIndex d u.pin⟩ = false

/-- Every commit is of a whole frame: each `submit_frame` directly follows the `write_line` events of COM lines 0, 1, 2 and
3, in that order (R132, R134). -/
def FramesWhole (width : Nat) (es : List PeriphEvent) : Prop :=
  ∀ before after, es = before ++ .submitFrame :: after →
    ∃ earlier b0 b1 b2 b3,
      before = earlier ++ [.writeLine 0 width b0, .writeLine 1 width b1, .writeLine 2 width b2, .writeLine 3 width b3]

/-- Every `write_line` carries zeros above bit 5 (R133) and in the bits of the unused slot (R45, I8), at the peripheral's
width. -/
def LinesClean (geom : Geometry) (width : Nat) (es : List PeriphEvent) : Prop :=
  ∀ c w (bits : BitVec w), .writeLine c w bits ∈ es →
    w = width ∧ (∀ i, 6 ≤ i → bits.getLsbD i = false) ∧
    (∀ u, Unused geom u → u.com = c → ∀ d, bits.getLsbD (bitIndex d u.pin).val = false)

/-- The machine invariant: the unused slot reads 0 in the frame buffer and on the wire, and the event stream commits whole
frames only. -/
structure Inv (s : State) : Prop where
  unused : UnusedBitsZero s.geom s.fb
  frames : FramesWhole s.periphW.bits s.events
  lines : LinesClean s.geom s.periphW.bits s.events

end Sys2Proof.Machine
end

