-- ==== Sys2Proof/Certificates/Slice0/Obligations.lean ====
section
/-! DEFINITION. The statements for the provers, from the numbered rules of the spec. -/

open Sys2Proof Sys2Proof.Machine

/-! ### Reset and the host's inputs -/

/-- The state after reset of a block built with any tables: every line 0, the tables the constants they were, nothing
pending on the response channel, nothing emitted; reset itself changes no table and emits nothing (R32). The last clause
says more than R32, which speaks of the time before the first command: a step that takes no command leaves no response,
also after a command. That rests on R25 (a response does not persist) and on the model's choice of an idle step and of a
response channel that each step empties (log entries 2 and 16). -/
def Obligations.ResetStateHoldsSpecValues : Prop :=
  (∀ (geom : Geometry) (glyph : GlyphRom) (w : PeriphWidth),
    (∀ c, (State.resetWith geom glyph w).fb.line c = 0#6) ∧
    (State.resetWith geom glyph w).geom = geom ∧
    (State.resetWith geom glyph w).glyph = glyph ∧
    (State.resetWith geom glyph w).response = none ∧
    (State.resetWith geom glyph w).events = []) ∧
  State.reset = State.resetWith Config.geom Config.glyph Config.periphW ∧
  (∀ (s : State) (rest : List HostInput), ∃ t, step { s with port := .reset :: rest } = .next t ∧
    (∀ c, t.fb.line c = 0#6) ∧ t.geom = s.geom ∧ t.glyph = s.glyph ∧ t.events = s.events) ∧
  (∀ s t : State, (∀ w rest, s.port ≠ .command w :: rest) → step s = .next t → t.response = none)

/-- Reset zeroes every line, responds nothing and emits nothing; it is taken at any time, and one that arrives while a
command is in progress has the same effect on the frame buffer and the response (R170). The last clause, that CLEAR leaves
the frame buffer a reset leaves, is the spec's own derivation (the last sentence of R171, derived from R170 and R100). -/
def Obligations.ResetInputZeroesFrameBuffer : Prop :=
  (∀ (s : State) (rest : List HostInput),
    step { s with port := .reset :: rest } =
      .next { s with fb := ⟨0#6, 0#6, 0#6, 0#6⟩, response := none, port := rest }) ∧
  (∀ (s : State) (w : Word) (rest : List HostInput),
    ∃ t, step { s with port := .resetDuring w :: rest } = .next t ∧ t.fb = ⟨0#6, 0#6, 0#6, 0#6⟩ ∧ t.response = none) ∧
  (∀ s : State, ∃ t, exec .clear s = .next t ∧ t.fb = ⟨0#6, 0#6, 0#6, 0#6⟩)

/-- A reset that arrives while a command is in progress abandons it (60_exceptions.md section 2). What the peripheral saw of an abandoned FLUSH is
any prefix of its events (I12; the free value of log entry 8), and of any other command nothing. -/
def Obligations.ResetAbandonsCommandInProgress : Prop :=
  ∀ (s : State) (w : Word) (rest : List HostInput),
    ∃ t n, step { s with port := .resetDuring w :: rest } = .next t ∧ n ≤ 5 ∧
      (∀ c, t.fb.line c = 0#6) ∧ t.response = none ∧ t.port = rest ∧
      t.geom = s.geom ∧ t.glyph = s.glyph ∧ t.periphW = s.periphW ∧
      t.events = s.events ++ (if decode w = .flush then
        ([.writeLine 0 s.periphW.bits ((s.fb.line 0).setWidth s.periphW.bits),
          .writeLine 1 s.periphW.bits ((s.fb.line 1).setWidth s.periphW.bits),
          .writeLine 2 s.periphW.bits ((s.fb.line 2).setWidth s.periphW.bits),
          .writeLine 3 s.periphW.bits ((s.fb.line 3).setWidth s.periphW.bits),
          .submitFrame] : List PeriphEvent).take n else [])

/-- The model's step around `exec`: a command word is taken off the port and its decoded command executed; with nothing
presented the block is idle and keeps everything but the response. The port and the idle step are the model's choice (log
entries 1, 2 and 16). -/
def Obligations.StepRunsTheDecodedCommand : Prop :=
  (∀ (s : State) (w : Word) (i : Instr) (rest : List HostInput), decode w = i → i.wellFormed = true →
    step { s with port := .command w :: rest } = exec i { s with port := rest }) ∧
  (∀ (s : State) (w : Nat), step (s.withFetchWord 32 w) = exec (decode (BitVec.ofNat 32 w)) s) ∧
  (∀ s : State, s.port = [] → step s = .next { s with response := none })

/-- R52: presenting command words in an order gives what executing their commands in that order gives, each after the
whole effect of the earlier ones. -/
def Obligations.CommandsTakeEffectInPresentedOrder : Prop :=
  ∀ (ws : List Word) (s : State),
    Host.Core.run Sys2Proof.core ws.length { s with port := ws.map .command } =
      execAll (ws.map decode) { s with port := [] }

/-- R150: no command and no host input stops the block, from any state, for ever. -/
def Obligations.NothingEverStopsTheBlock : Prop :=
  (∀ (i : Instr) (s : State), ∃ t, exec i s = .next t) ∧ (∀ s : State, NeverStops s)

/-! ### Encoding -/

/-- The decoder's vectors of 95_test_vectors.md section 2.6. -/
def Obligations.DecoderReadsTestWords : Prop :=
  decode 0x00000000#32 = .nop ∧
  decode 0x10000000#32 = .clear ∧
  decode 0x2200007F#32 = .setPattern 2#4 0x7F#7 ∧
  decode 0x2FFFFF80#32 = .setPattern 15#4 0x00#7 ∧
  decode 0x30E00041#32 = .setChar 0#4 0x41#21 ∧
  decode 0x4FE00041#32 = .lookup 0x41#21 ∧
  decode 0x401FFFFF#32 = .lookup 0x1FFFFF#21 ∧
  decode 0x5FFFFFFF#32 = .readLine 3#2 ∧
  decode 0x60000000#32 = .flush ∧
  decode 0x70000000#32 = .reserved7 ∧
  decode 0xFFFFFFFF#32 = .reserved8to15 15#4

/-- The opcode field alone selects the command, for every word, and the operands are the unsigned fields of R63. That every
word decodes to exactly one command is the spec's own derivation (R67, derived from R66). -/
def Obligations.OpcodeFieldSelectsCommand : Prop :=
  ∀ w : Word,
    (w >>> 28 = 0#32 → decode w = .nop) ∧
    (w >>> 28 = 1#32 → decode w = .clear) ∧
    (w >>> 28 = 2#32 → decode w = .setPattern ((w >>> 24).setWidth 4) (w.setWidth 7)) ∧
    (w >>> 28 = 3#32 → decode w = .setChar ((w >>> 24).setWidth 4) (w.setWidth 21)) ∧
    (w >>> 28 = 4#32 → decode w = .lookup (w.setWidth 21)) ∧
    (w >>> 28 = 5#32 → decode w = .readLine ((w >>> 24).setWidth 2)) ∧
    (w >>> 28 = 6#32 → decode w = .flush) ∧
    (w >>> 28 = 7#32 → decode w = .reserved7) ∧
    (8 ≤ (w >>> 28).toNat → decode w = .reserved8to15 ((w >>> 28).setWidth 4))

/-- R66: each word matches exactly one row of the opcode map, the row of the command it decodes to; ignored bits change
neither the command nor an operand; the assembler writes them as 0. -/
def Obligations.EveryWordMatchesExactlyItsRow : Prop :=
  (∀ w : Word, (opcodeRows.filter (fun r => r.accepts w)).map OpcodeRow.mnemonic = [(decode w).mnemonic]) ∧
  (∀ w : Word, decode (w &&& formatMask w) = decode w) ∧
  (∀ i w, asmWord i = some w → w &&& formatMask w = w)

/-- R70: a word with ignored bits set executes exactly as the word with those bits 0; the rule's own example. -/
def Obligations.IgnoredBitsDoNotChangeExecution : Prop :=
  (∀ (s : State) (w : Word) (rest : List HostInput),
    step { s with port := .command w :: rest } = step { s with port := .command (w &&& formatMask w) :: rest }) ∧
  decode 0x2FFFFF80#32 = .setPattern 15#4 0#7 ∧
  (∀ s : State, step { s with port := [.command 0x2FFFFF80#32] } =
    .next { s with port := [], response := some .none })

/-- Decoding the word of any well-formed command gives the command back, operands and all. -/
def Obligations.DecodeInvertsEncode : Prop :=
  ∀ i : Instr, i.wellFormed = true → decode (encode i) = i

/-- Encoding what a word decodes to gives the word with its ignored bits 0, and what a word decodes to is well formed. -/
def Obligations.EncodeOfDecodeKeepsEveryUsedBit : Prop :=
  ∀ w : Word, encode (decode w) = w &&& formatMask w ∧ (decode w).wellFormed = true

/-! ### The address map -/

/-- R41: a table of slots is rejected exactly when two segments share a slot, and is otherwise the `GEOM` of the instance. -/
def Obligations.GeometryRejectsSharedSlots : Prop :=
  ∀ t : GeomTable,
    (geometryOf t = none ↔ ∃ s s', s ≠ s' ∧ tableSlot t s = tableSlot t s') ∧
    (∀ g, geometryOf t = some g → ∀ s, slotOf g s = tableSlot t s)

/-- The example geometry's slots and its one unused slot (20_memory.md section 5). -/
def Obligations.ExampleGeometryLeavesSlotThreeOneUnused : Prop :=
  segments.map (slotOf geomEx) = [⟨0, 0⟩, ⟨0, 1⟩, ⟨2, 1⟩, ⟨3, 0⟩, ⟨2, 0⟩, ⟨1, 0⟩, ⟨1, 1⟩] ∧
  (∀ u, Unused geomEx u ↔ u = ⟨3, 1⟩)

/-- R43: digit positions are packed in reverse order, pin 0 the lower bit. -/
def Obligations.DigitPositionsPackInReverse : Prop :=
  (bitIndex 0 0 = 4 ∧ bitIndex 0 1 = 5 ∧ bitIndex 1 0 = 2 ∧ bitIndex 1 1 = 3 ∧ bitIndex 2 0 = 0 ∧ bitIndex 2 1 = 1) ∧
  (∀ d c b, owns d ⟨c, b⟩ = true ↔ b = bitIndex d 0 ∨ b = bitIndex d 1) ∧
  (∀ d, (bitIndex d 1).val = (bitIndex d 0).val + 1)

/-- The address map is injective over the 7 × 3 domain, for every admissible geometry: the spec's own derivation (the first
sentence of R44, derived from R41 and R42). -/
def Obligations.AddressesAreInjective : Prop :=
  ∀ (geom : Geometry) (s s' : Segment) (d d' : DigitPos), addr geom s d = addr geom s' d' → s = s' ∧ d = d'

/-- Every bit belongs to exactly one digit position, and a segment's address to its own position: the spec's own derivation
(R46, derived from R42 and R43). -/
def Obligations.OwnSetsPartitionTheBits : Prop :=
  (∀ a : BitAddr, ∃! d, owns d a = true) ∧
  (∀ (geom : Geometry) (s : Segment) (d : DigitPos), owns d (addr geom s d) = true)

/-- R21: every bit is of at most one (segment, position) pair; the pair is the one whose line and bit index it is; exactly
one slot is unused, and its bits are exactly those of no pair. -/
def Obligations.EachBitServesAtMostOnePair : Prop :=
  ∀ geom : Geometry,
    (∀ (a : BitAddr) (s s' : Segment) (d d' : DigitPos),
      (slotOf geom s).com = a.com → a.bit = bitIndex d (slotOf geom s).pin →
      (slotOf geom s').com = a.com → a.bit = bitIndex d' (slotOf geom s').pin → s = s' ∧ d = d') ∧
    (∃! u, Unused geom u) ∧
    (∀ a : BitAddr, (∃ u d, Unused geom u ∧ a = ⟨u.com, bitIndex d u.pin⟩) ↔ ∀ s d, addr geom s d ≠ a)

/-- Exactly one slot is unused; no command but CLEAR changes its bits, which CLEAR and reset make 0; they read 0 at every
point of every run from reset: the spec's own derivation (R45). -/
def Obligations.UnusedSlotAlwaysReadsZero : Prop :=
  (∀ geom : Geometry, ∃! u, Unused geom u) ∧
  (∀ (i : Instr) (s t : State) (u : Slot) (d : DigitPos), exec i s = .next t → Unused s.geom u →
    t.fb.bit ⟨u.com, bitIndex d u.pin⟩ =
      if i = .clear then false else s.fb.bit ⟨u.com, bitIndex d u.pin⟩) ∧
  (∀ (geom : Geometry) (glyph : GlyphRom) (w : PeriphWidth) (s : State),
    Reachable (State.resetWith geom glyph w) s →
      ∀ u, Unused geom u →
        (s.fb.line u.com).getLsbD u.pin.val = false ∧
        (s.fb.line u.com).getLsbD (u.pin.val + 2) = false ∧
        (s.fb.line u.com).getLsbD (u.pin.val + 4) = false)

/-! ### The frame-buffer commands -/

/-- R100: CLEAR zeroes all four lines, whatever the ignored bits of its word, and does nothing else. -/
def Obligations.ClearZeroesAllLines : Prop :=
  (∀ s : State, exec .clear s = .next { s with fb := ⟨0#6, 0#6, 0#6, 0#6⟩, response := some .none }) ∧
  (∀ (s : State) (w : Word) (rest : List HostInput), w >>> 28 = 1#32 →
    step { s with port := .command w :: rest } =
      .next { s with fb := ⟨0#6, 0#6, 0#6, 0#6⟩, response := some .none, port := rest })

/-- After CLEAR, whatever commands but SET_PATTERN and SET_CHAR follow, a FLUSH sends four zero lines: the spec's own
derivation (R101, derived from R100 and R132). -/
def Obligations.ClearThenFlushSendsZeroLines : Prop :=
  ∀ (s : State) (is : List Instr), (∀ i ∈ is, NoCellWrite i) →
    ∃ t es, execAll (.clear :: (is ++ [.flush])) s = .next t ∧
      t.events = es ++ [.writeLine 0 s.periphW.bits 0, .writeLine 1 s.periphW.bits 0, .writeLine 2 s.periphW.bits 0,
        .writeLine 3 s.periphW.bits 0, .submitFrame]

/-- R104: SET_PATTERN at a digit position sets or clears the seven segment bits of its cell and leaves every other bit,
every event and all other state alone; at any other position it changes nothing; either way it responds NONE. A word with
opcode 2 runs it, whatever its ignored bits. -/
def Obligations.SetPatternScattersIntoItsCell : Prop :=
  (∀ (s : State) (pos : Position) (pat : Pattern) (d : DigitPos), pos.toNat = d.val →
    ∃ fb, exec (.setPattern pos pat) s = .next { s with fb := fb, response := some .none } ∧
      (∀ seg : Segment, (fb.line (slotOf s.geom seg).com).getLsbD ((2 - d.val) * 2 + (slotOf s.geom seg).pin.val) =
        pat.getLsbD (segmentIndex seg).val) ∧
      (∀ a, (∀ seg, addr s.geom seg d ≠ a) → fb.bit a = s.fb.bit a)) ∧
  (∀ (s : State) (pos : Position) (pat : Pattern), 2 < pos.toNat →
    exec (.setPattern pos pat) s = .next { s with response := some .none }) ∧
  (∀ (s : State) (w : Word) (rest : List HostInput), w >>> 28 = 2#32 →
    step { s with port := .command w :: rest } =
      exec (.setPattern ((w >>> 24).setWidth 4) (w.setWidth 7)) { s with port := rest })

/-- R105: at a position above 2, SET_PATTERN and SET_CHAR leave the frame buffer completely unchanged, emit nothing and
respond NONE, whatever the Pattern or character. -/
def Obligations.PositionAboveTwoChangesNothing : Prop :=
  ∀ (s : State) (pos : Position), 2 < pos.toNat →
    (∀ pat, exec (.setPattern pos pat) s = .next { s with response := some .none }) ∧
    (∀ ch, exec (.setChar pos ch) s = .next { s with response := some .none })

/-- SET_PATTERN at d writes only the seven bits `addr(s, d)`, which lie in `Own(d)`; every bit of the other positions and the
unused slot's bit of `Own(d)` are unchanged: the spec's own derivation (R106, derived from R104 and R45). -/
def Obligations.PartialUpdateLeavesOtherCellsAlone : Prop :=
  ∀ (s : State) (pos : Position) (pat : Pattern) (d : DigitPos), pos.toNat = d.val →
    ∃ t, exec (.setPattern pos pat) s = .next t ∧
      (∀ seg, owns d (addr s.geom seg d) = true) ∧
      (∀ a, t.fb.bit a ≠ s.fb.bit a → ∃ seg, addr s.geom seg d = a) ∧
      (∀ d' a, d' ≠ d → owns d' a = true → t.fb.bit a = s.fb.bit a) ∧
      (∀ u, Unused s.geom u → t.fb.bit ⟨u.com, bitIndex d u.pin⟩ = s.fb.bit ⟨u.com, bitIndex d u.pin⟩)

/-- The cell read-back function; after SET_PATTERN at d its own cell reads the Pattern and the other cells are unchanged; the
three cells determine a frame buffer whose unused-slot bits are 0: the spec's own derivation (R107). -/
def Obligations.CellsReadBackAndDetermineTheBuffer : Prop :=
  (∀ (geom : Geometry) (fb : FrameBuffer) (d : DigitPos) (seg : Segment),
    segmentOn (cell geom fb d) seg = (fb.line (slotOf geom seg).com).getLsbD (bitIndex d (slotOf geom seg).pin).val) ∧
  (∀ (s : State) (pos : Position) (pat : Pattern) (d : DigitPos), pos.toNat = d.val →
    ∃ t, exec (.setPattern pos pat) s = .next t ∧ cell s.geom t.fb d = pat ∧
      ∀ d', d' ≠ d → cell s.geom t.fb d' = cell s.geom s.fb d') ∧
  (∀ (geom : Geometry) (fb fb' : FrameBuffer), UnusedBitsZero geom fb → UnusedBitsZero geom fb' →
    (∀ d, cell geom fb d = cell geom fb' d) → fb = fb')

/-- R110: SET_CHAR is SET_PATTERN applied to the looked-up Pattern, in every state and at every position. A word with opcode
3 runs it, whatever its ignored bits. -/
def Obligations.SetCharIsSetPatternOfLookup : Prop :=
  (∀ (s : State) (pos : Position) (ch : CharCode),
    exec (.setChar pos ch) s = exec (.setPattern pos (glyphLookup s.glyph ch)) s) ∧
  (∀ (s : State) (w : Word) (rest : List HostInput), w >>> 28 = 3#32 →
    step { s with port := .command w :: rest } =
      exec (.setChar ((w >>> 24).setWidth 4) (w.setWidth 21)) { s with port := rest })

/-- What SET_CHAR leaves at a digit position: the cell shows the glyph of a supported character, or is blank for an
unsupported one; the other cells, the other bits and all other state are unchanged. -/
def Obligations.SetCharShowsTheGlyphInItsCell : Prop :=
  ∀ (s : State) (pos : Position) (ch : CharCode) (d : DigitPos), pos.toNat = d.val →
    ∃ fb, exec (.setChar pos ch) s = .next { s with fb := fb, response := some .none } ∧
      (∀ k, supportedCode k = foldCase ch → cell s.geom fb d = glyphOf s.glyph k) ∧
      ((∀ k, supportedCode k ≠ foldCase ch) → cell s.geom fb d = 0#7) ∧
      (∀ d', d' ≠ d → cell s.geom fb d' = cell s.geom s.fb d') ∧
      (∀ a, (∀ seg, addr s.geom seg d ≠ a) → fb.bit a = s.fb.bit a)

/-- Two identical SET_CHAR commands leave the state one leaves, and the same for SET_PATTERN and CLEAR; after the first
SET_CHAR its cell reads the looked-up Pattern: the spec's own derivation (R111, derived from R107 and R110). -/
def Obligations.RepeatedWritesAreIdempotent : Prop :=
  (∀ (s : State) (pos : Position) (ch : CharCode),
    execAll [.setChar pos ch, .setChar pos ch] s = execAll [.setChar pos ch] s) ∧
  (∀ (s : State) (pos : Position) (pat : Pattern),
    execAll [.setPattern pos pat, .setPattern pos pat] s = execAll [.setPattern pos pat] s) ∧
  (∀ s : State, execAll [.clear, .clear] s = execAll [.clear] s) ∧
  (∀ (s : State) (pos : Position) (ch : CharCode) (d : DigitPos), pos.toNat = d.val →
    ∃ t, exec (.setChar pos ch) s = .next t ∧ cell s.geom t.fb d = glyphLookup s.glyph ch)

/-- Writes at distinct positions commute; at one position the later one wins; and from a cleared buffer three characters
written at the three positions in any order give the buffer whose cells are their Patterns: the spec's own derivation (R112,
derived from R106). -/
def Obligations.WritesAtDistinctPositionsCommute : Prop :=
  (∀ (s : State) (i j : Instr) (d d' : DigitPos), WritesCell i d → WritesCell j d' → d ≠ d' →
    execAll [i, j] s = execAll [j, i] s) ∧
  (∀ (s : State) (i j : Instr) (d : DigitPos), WritesCell i d → WritesCell j d →
    execAll [i, j] s = execAll [j] s) ∧
  (∀ (s : State) (x y z : CharCode) (is : List Instr), s.fb = ⟨0#6, 0#6, 0#6, 0#6⟩ →
    is.Perm [.setChar 0#4 x, .setChar 1#4 y, .setChar 2#4 z] →
    ∃ t, execAll is s = .next t ∧ UnusedBitsZero s.geom t.fb ∧
      cell s.geom t.fb 0 = glyphLookup s.glyph x ∧
      cell s.geom t.fb 1 = glyphLookup s.glyph y ∧
      cell s.geom t.fb 2 = glyphLookup s.glyph z)

/-- R115: READ_LINE responds with the line its operand names, bit i of the response the bit i of the line, and changes
nothing; every operand names a line. A word with opcode 5 runs it, whatever its ignored bits. -/
def Obligations.ReadLineRespondsWithTheLine : Prop :=
  (∀ (s : State) (com : BitVec 2), ∃ v : Line,
    exec (.readLine com) s = .next { s with response := some (.line v) } ∧
    (com = 0#2 → v = s.fb.line0) ∧ (com = 1#2 → v = s.fb.line1) ∧ (com = 2#2 → v = s.fb.line2) ∧
    (com = 3#2 → v = s.fb.line3) ∧
    (∀ b : BitIndex, v.getLsbD b.val = s.fb.bit ⟨comIndex com, b⟩)) ∧
  (∀ (s : State) (w : Word) (rest : List HostInput), w >>> 28 = 5#32 →
    step { s with port := .command w :: rest } = exec (.readLine ((w >>> 24).setWidth 2)) { s with port := rest })

/-- R20: a command other than CLEAR, SET_PATTERN and SET_CHAR leaves every line as it is, and what a command other than
READ_LINE and FLUSH responds and emits does not depend on the lines. -/
def Obligations.OnlyTheNamedCommandsUseTheLines : Prop :=
  (∀ (i : Instr) (s t : State), exec i s = .next t → i ≠ .clear → NoCellWrite i → t.fb = s.fb) ∧
  (∀ (i : Instr) (s t : State) (fb : FrameBuffer), exec i s = .next t → i ≠ .flush → (∀ com, i ≠ .readLine com) →
    ∃ t', exec i { s with fb := fb } = .next t' ∧ t'.response = t.response ∧ t'.events = t.events)

/-- R22: what a line becomes depends on that line alone, not on another line's bits; and setting the Pattern of one
position does not disturb a bit of another. -/
def Obligations.LinesAreIndependent : Prop :=
  (∀ (i : Instr) (s s' t t' : State) (c : ComIndex), s.geom = s'.geom → s.glyph = s'.glyph →
    s.fb.line c = s'.fb.line c → exec i s = .next t → exec i s' = .next t' → t.fb.line c = t'.fb.line c) ∧
  (∀ (s t : State) (pos : Position) (pat : Pattern) (d' : DigitPos) (a : BitAddr),
    exec (.setPattern pos pat) s = .next t → pos.toNat ≠ d'.val → owns d' a = true → t.fb.bit a = s.fb.bit a)

/-- The frame buffers reachable from reset are exactly those whose unused-slot bits are 0, and each is reached by three
SET_PATTERN commands with its own cells: the spec's own derivation (R116, derived from R107 and R45). -/
def Obligations.ReachableBuffersAreThoseWithUnusedBitsZero : Prop :=
  ∀ (geom : Geometry) (glyph : GlyphRom) (w : PeriphWidth) (fb : FrameBuffer),
    ((∃ s, Reachable (State.resetWith geom glyph w) s ∧ s.fb = fb) ↔ UnusedBitsZero geom fb) ∧
    (UnusedBitsZero geom fb →
      ∃ t, execAll [.setPattern 0#4 (cell geom fb 0), .setPattern 1#4 (cell geom fb 1), .setPattern 2#4 (cell geom fb 2)]
          (State.resetWith geom glyph w) = .next t ∧ t.fb = fb)

/-! ### The glyph function -/

/-- R82: the glyph function on every code; the codes that can give a nonblank Pattern are exactly the 31 named. -/
def Obligations.GlyphLookupFollowsTheTable : Prop :=
  (∀ (rom : GlyphRom) (k : SupportedChar), glyphLookup rom (supportedCode k) = glyphOf rom k) ∧
  (∀ (rom : GlyphRom) (ch : CharCode), 0x61 ≤ ch.toNat → ch.toNat ≤ 0x7A →
    glyphLookup rom ch = glyphLookup rom (ch - 0x20#21)) ∧
  (∀ (rom : GlyphRom) (ch : CharCode), (∀ k, supportedCode k ≠ ch) → ¬ (0x61 ≤ ch.toNat ∧ ch.toNat ≤ 0x7A) →
    glyphLookup rom ch = 0#7) ∧
  (∀ ch : CharCode, (∃ rom, glyphLookup rom ch ≠ 0#7) ↔
    ch.toNat ∈ [0x30, 0x31, 0x32, 0x33, 0x34, 0x35, 0x36, 0x37, 0x38, 0x39,
      0x41, 0x42, 0x43, 0x44, 0x45, 0x46, 0x52, 0x4F, 0x4E, 0x54, 0x2D,
      0x61, 0x62, 0x63, 0x64, 0x65, 0x66, 0x72, 0x6F, 0x6E, 0x74])

/-- Lower and upper case of a letter give the same Pattern, blank for a letter outside SUPPORTED: the spec's own derivation
(R85, derived from R82). -/
def Obligations.LetterCaseDoesNotMatter : Prop :=
  (∀ (rom : GlyphRom) (ch : CharCode), 0x41 ≤ ch.toNat → ch.toNat ≤ 0x5A →
    glyphLookup rom (ch + 0x20#21) = glyphLookup rom ch) ∧
  (∀ (rom : GlyphRom) (ch : CharCode), 0x41 ≤ ch.toNat → ch.toNat ≤ 0x5A → (∀ k, supportedCode k ≠ ch) →
    glyphLookup rom ch = 0#7 ∧ glyphLookup rom (ch + 0x20#21) = 0#7) ∧
  (∀ rom : GlyphRom, glyphLookup rom 0x5A#21 = 0#7 ∧ glyphLookup rom 0x7A#21 = 0#7)

/-- R84: the Pattern of a segment set has bit index(s) on exactly for its members; the blank and full Patterns; equality
is bitwise. -/
def Obligations.PatternsAreSegmentSets : Prop :=
  (∀ (ss : List Segment) (s : Segment), (patternOf ss).getLsbD (segmentIndex s).val = true ↔ s ∈ ss) ∧
  patternOf [] = 0#7 ∧ patternOf segments = 0x7F#7 ∧
  (∀ p q : Pattern, (∀ s : Segment, p.getLsbD (segmentIndex s).val = q.getLsbD (segmentIndex s).val) → p = q)

/-- R88: LOOKUP responds with the Pattern of its character, whatever the frame buffer holds and whatever came before, and
changes nothing. A word with opcode 4 runs it, whatever its ignored bits. -/
def Obligations.LookupRespondsWithThePattern : Prop :=
  (∀ (s : State) (ch : CharCode), exec (.lookup ch) s = .next { s with response := some (.pat (glyphLookup s.glyph ch)) }) ∧
  (∀ (s : State) (ch : CharCode), (∀ k, supportedCode k ≠ foldCase ch) →
    exec (.lookup ch) s = .next { s with response := some (.pat 0#7) }) ∧
  (∀ (s : State) (ch : CharCode) (k : SupportedChar), supportedCode k = foldCase ch →
    exec (.lookup ch) s = .next { s with response := some (.pat (glyphOf s.glyph k)) }) ∧
  (∀ (s : State) (w : Word) (rest : List HostInput), w >>> 28 = 4#32 →
    step { s with port := .command w :: rest } = exec (.lookup (w.setWidth 21)) { s with port := rest })

/-! ### NOP, FLUSH and the reserved opcodes -/

/-- R130, R135: NOP and every reserved command change nothing and respond NONE, whatever the other bits of the word. -/
def Obligations.NopAndReservedChangeNothing : Prop :=
  (∀ (s : State) (op : BitVec 4),
    exec .nop s = .next { s with response := some .none } ∧
    exec .reserved7 s = .next { s with response := some .none } ∧
    exec (.reserved8to15 op) s = .next { s with response := some .none }) ∧
  (∀ (s : State) (w : Word) (rest : List HostInput), w >>> 28 = 0#32 ∨ 7 ≤ (w >>> 28).toNat →
    step { s with port := .command w :: rest } = .next { s with response := some .none, port := rest })

/-- R132: FLUSH emits the four lines of one snapshot in ascending COM order and then the commit, responds NONE, and
changes nothing in the block. A word with opcode 6 runs it, whatever its ignored bits. -/
def Obligations.FlushSendsOneSnapshot : Prop :=
  (∀ s : State, exec .flush s = .next { s with
    response := some .none
    events := s.events ++
      [.writeLine 0 s.periphW.bits (s.fb.line0.setWidth s.periphW.bits),
       .writeLine 1 s.periphW.bits (s.fb.line1.setWidth s.periphW.bits),
       .writeLine 2 s.periphW.bits (s.fb.line2.setWidth s.periphW.bits),
       .writeLine 3 s.periphW.bits (s.fb.line3.setWidth s.periphW.bits),
       .submitFrame] }) ∧
  (∀ (s : State) (w : Word) (rest : List HostInput), w >>> 28 = 6#32 →
    step { s with port := .command w :: rest } = exec .flush { s with port := rest })

/-- R133: the bits of each `write_line` a FLUSH sends: bits 5:0 are the line's, every higher bit is 0, and the
peripheral's width is at least 6. -/
def Obligations.WriteLineCarriesTheLineZeroExtended : Prop :=
  ∀ s : State, ∃ t, exec .flush s = .next t ∧ 6 ≤ s.periphW.bits ∧
    ∀ c : ComIndex, ∃ bits : BitVec s.periphW.bits,
      t.events[s.events.length + c.val]? = some (.writeLine c s.periphW.bits bits) ∧
      (∀ b : BitIndex, bits.getLsbD b.val = s.fb.bit ⟨c, b⟩) ∧
      (∀ i, 6 ≤ i → bits.getLsbD i = false)

/-- R134: a FLUSH owes the peripheral the five events of R132, each line zero-extended, in order and once; no other command
emits anything. -/
def Obligations.OnlyFlushEmitsEvents : Prop :=
  ∀ (i : Instr) (s : State), ∃ t es, exec i s = .next t ∧ t.events = s.events ++ es ∧
    (i ≠ .flush → es = []) ∧
    (i = .flush → es =
      [.writeLine 0 s.periphW.bits ((s.fb.line 0).setWidth s.periphW.bits),
       .writeLine 1 s.periphW.bits ((s.fb.line 1).setWidth s.periphW.bits),
       .writeLine 2 s.periphW.bits ((s.fb.line 2).setWidth s.periphW.bits),
       .writeLine 3 s.periphW.bits ((s.fb.line 3).setWidth s.periphW.bits),
       .submitFrame])

/-! ### The whole machine -/

/-- R24: no command, reset or idle step writes a table. -/
def Obligations.NoStepWritesATable : Prop :=
  ∀ s t : State, step s = .next t → t.geom = s.geom ∧ t.glyph = s.glyph ∧ t.periphW = s.periphW

/-- R25: every command gives exactly one response, of the kind its command has; the response is not state: no later step
depends on it. -/
def Obligations.EveryCommandRespondsOnceAndForgets : Prop :=
  (∀ (i : Instr) (s : State), ∃ t r, exec i s = .next t ∧ t.response = some r ∧
    (∀ ch, i = .lookup ch → ∃ p, r = .pat p) ∧
    (∀ com, i = .readLine com → ∃ v, r = .line v) ∧
    ((∀ ch, i ≠ .lookup ch) → (∀ com, i ≠ .readLine com) → r = .none)) ∧
  (∀ (s : State) (r : Option Response), step { s with response := r } = step s)

/-- Nothing but the frame buffer and the tables carries over from one command to the next: two states that agree on
them answer a command alike, whatever they answered, emitted or counted before (10_state.md
section 4, the first sentence of R29). -/
def Obligations.NoHiddenStateBetweenCommands : Prop :=
  ∀ (i : Instr) (s s' : State), s.fb = s'.fb → s.geom = s'.geom → s.glyph = s'.glyph → s.periphW = s'.periphW →
    ∃ t t' es, exec i s = .next t ∧ exec i s' = .next t' ∧ t.fb = t'.fb ∧ t.response = t'.response ∧
      t.events = s.events ++ es ∧ t'.events = s'.events ++ es

/-- The machine invariant holds after reset, whatever tables the block was built with (the model's own event stream, log
entry 3). -/
def Obligations.ResetSatisfiesInvariant : Prop :=
  (∀ (geom : Geometry) (glyph : GlyphRom) (w : PeriphWidth), Inv (State.resetWith geom glyph w)) ∧ Inv State.reset

/-- Every step keeps the machine invariant: the unused slot's bits are 0 in the frame buffer and on the wire, and the
event stream commits whole frames only, even when a reset abandons a FLUSH (the model's own event stream, log entry 3, and
free value, log entry 8). -/
def Obligations.EveryStepKeepsInvariant : Prop :=
  ∀ s t : State, Inv s → step s = .next t → Inv t

/-! ### The assembler -/

/-- The words of the syntax table of R71, for every operand in each of its spellings: numbers, segment sets, quoted characters
and code points. An operand out of its range and a reserved opcode are refused. R71 does not say how far the values after
`U+` range: that they are accepted up to 0x1FFFFF and refused above is the model's choice, and so is that a segment set may
be empty or repeat a member (log entry 13, DESIGN CHOICE). -/
def Obligations.AssemblerWordsFollowTheSyntaxTable : Prop :=
  (assembleWords .nop = some [0x00000000#32] ∧ assembleWords .clear = some [0x10000000#32] ∧
    assembleWords .flush = some [0x60000000#32]) ∧
  (∀ pos pat : Nat, assembleWords (.setPattern pos (.number pat)) =
    if pos ≤ 15 ∧ pat ≤ 0x7F then some [BitVec.ofNat 32 (0x20000000 ||| pos <<< 24 ||| pat)] else none) ∧
  (∀ (pos : Nat) (ss : List Segment), assembleWords (.setPattern pos (.segmentSet ss)) =
    if pos ≤ 15 then some [BitVec.ofNat 32 (0x20000000 ||| pos <<< 24 |||
      ss.foldr (fun s v => 1 <<< (segmentIndex s).val ||| v) 0)] else none) ∧
  (∀ pos ch : Nat, assembleWords (.setChar pos (.codePoint ch)) =
    if pos ≤ 15 ∧ ch ≤ 0x1FFFFF then some [BitVec.ofNat 32 (0x30000000 ||| pos <<< 24 ||| ch)] else none) ∧
  (∀ (pos : Nat) (c : Char), assembleWords (.setChar pos (.quoted c)) =
    if pos ≤ 15 then some [BitVec.ofNat 32 (0x30000000 ||| pos <<< 24 ||| c.toNat)] else none) ∧
  (∀ ch : Nat, assembleWords (.lookup (.codePoint ch)) =
    if ch ≤ 0x1FFFFF then some [BitVec.ofNat 32 (0x40000000 ||| ch)] else none) ∧
  (∀ c : Char, assembleWords (.lookup (.quoted c)) = some [BitVec.ofNat 32 (0x40000000 ||| c.toNat)]) ∧
  (∀ com : Nat, assembleWords (.readLine com) =
    if com ≤ 3 then some [BitVec.ofNat 32 (0x50000000 ||| com <<< 24)] else none) ∧
  (∀ i : Instr, asmWord i = none ↔ i = .reserved7 ∨ ∃ op, i = .reserved8to15 op)

/-- Whatever the assembler accepts it turns into words, with ignored bits 0, that decode to the commands of the line. -/
def Obligations.AssembledWordsDecodeToTheirCommands : Prop :=
  ∀ (l : AsmLine) (is : List Instr), assemble l = some is →
    ∃ ws, assembleWords l = some ws ∧ ws.map decode = is ∧ ∀ w ∈ ws, w &&& formatMask w = w

/-- R72: the expansions of the pseudo-instructions. -/
def Obligations.PseudoInstructionsExpand : Prop :=
  (∀ pos : Nat, assemble (.blank pos) = assemble (.setPattern pos (.number 0))) ∧
  (∀ pos : Nat, assemble (.fill pos) = assemble (.setPattern pos (.number 0x7F))) ∧
  (∀ x y z : Char, assemble (.showChars x y z) =
    some [.setChar 0#4 (BitVec.ofNat 21 x.toNat), .setChar 1#4 (BitVec.ofNat 21 y.toNat),
      .setChar 2#4 (BitVec.ofNat 21 z.toNat)]) ∧
  (∀ x y z : Char, assemble (.showFlush x y z) =
    some [.setChar 0#4 (BitVec.ofNat 21 x.toNat), .setChar 1#4 (BitVec.ofNat 21 y.toNat),
      .setChar 2#4 (BitVec.ofNat 21 z.toNat), .flush]) ∧
  assemble .readFrame = some [.readLine 0#2, .readLine 1#2, .readLine 2#2, .readLine 3#2]

/-- A `;` starts a comment: what follows one outside quotes does not change what the assembler reads (R71). -/
def Obligations.CommentsAreNotRead : Prop :=
  ∀ code comment : List Char, (∀ c ∈ code, c ≠ ';' ∧ c ≠ '\'' ∧ c ≠ '"') →
    parseLine (code ++ ';' :: comment) = parseLine code
end

