-- ==== Sys2Proof/Laws/Operands.lean ====
section
/-! SUPPORT. What the operand functions say: digit positions, slots, bit indices and Patterns. -/

namespace Sys2Proof.Machine

theorem mem_segments (s : Segment) : s ∈ segments := by cases s <;> decide

theorem segments_nodup : segments.Nodup := by decide

theorem segmentIndex_injective : Function.Injective segmentIndex := by
  intro s s' h
  cases s <;> cases s' <;> first | rfl | exact absurd h (by decide)

/-- GEOM-INJ as a property of the segment map. -/
theorem tableSlot_injective_iff (t : GeomTable) : Function.Injective (tableSlot t) ↔ t.Inj := by
  have key : [t.a, t.b, t.c, t.d, t.e, t.f, t.g] = segments.map (tableSlot t) := rfl
  constructor
  · intro h
    rw [GeomTable.Inj, key]
    exact segments_nodup.map h
  · intro h s s' e
    rw [GeomTable.Inj, key] at h
    exact List.inj_on_of_nodup_map h (mem_segments s) (mem_segments s') e

theorem slotOf_injective (geom : Geometry) : Function.Injective (slotOf geom) :=
  (tableSlot_injective_iff geom.table).2 geom.inj

theorem bitIndex_val (d : DigitPos) (pin : PinOffset) : (bitIndex d pin).val = (2 - d.val) * 2 + pin.val := rfl

/-- A bit index determines its digit position and its pin. -/
theorem bitIndex_inj {d d' : DigitPos} {p p' : PinOffset} (h : bitIndex d p = bitIndex d' p') : d = d' ∧ p = p' := by
  have := congrArg Fin.val h
  simp only [bitIndex_val] at this
  exact ⟨Fin.ext (by omega), Fin.ext (by omega)⟩

theorem digitPos?_of_toNat {pos : Position} {d : DigitPos} (h : pos.toNat = d.val) : digitPos? pos = some d := by
  simp [digitPos?, h]

theorem digitPos?_of_gt {pos : Position} (h : 2 < pos.toNat) : digitPos? pos = none := by
  simp [digitPos?]; omega

theorem digitPos?_eq_some {pos : Position} {d : DigitPos} (h : digitPos? pos = some d) : pos.toNat = d.val := by
  unfold digitPos? at h
  split at h
  · cases h; rfl
  · cases h

/-- Everything `patternOf` computes: a segment is on exactly when it is a member. -/
theorem segmentOn_patternOf (ss : List Segment) (s : Segment) : segmentOn (patternOf ss) s = decide (s ∈ ss) := by
  induction ss with
  | nil => simp [patternOf, segmentOn]
  | cons x xs ih =>
    have step : segmentOn (patternOf (x :: xs)) s = (decide (s = x) || segmentOn (patternOf xs) s) := by
      have bit : (1#7 <<< (segmentIndex x).val).getLsbD (segmentIndex s).val = decide (s = x) := by
        cases s <;> cases x <;> decide
      rw [← bit]
      exact BitVec.getLsbD_or
    rw [step, ih]
    simp

/-- Patterns with the same segments on are equal. -/
theorem pattern_ext {p q : Pattern} (h : ∀ s, segmentOn p s = segmentOn q s) : p = q := by
  apply BitVec.eq_of_getLsbD_eq
  intro i hi
  have hs : ∃ s, (segmentIndex s).val = i := by
    interval_cases i
    exacts [⟨.a, rfl⟩, ⟨.b, rfl⟩, ⟨.c, rfl⟩, ⟨.d, rfl⟩, ⟨.e, rfl⟩, ⟨.f, rfl⟩, ⟨.g, rfl⟩]
  obtain ⟨s, rfl⟩ := hs
  exact h s

theorem mem_supportedChars (k : SupportedChar) : k ∈ supportedChars := by cases k <;> decide

theorem supportedCode_injective : Function.Injective supportedCode := by
  intro k k' h
  revert h
  cases k <;> cases k' <;> decide

/-- Everything `supported?` answers: the supported character whose code it was given. -/
theorem supported?_eq_some {ch : CharCode} {k : SupportedChar} : supported? ch = some k ↔ supportedCode k = ch := by
  constructor
  · intro h
    simpa using List.find?_some h
  · rintro rfl
    cases k <;> decide

theorem supported?_eq_none {ch : CharCode} : supported? ch = none ↔ ∀ k, supportedCode k ≠ ch := by
  constructor
  · intro h k e
    rw [supported?_eq_some.2 e] at h
    cases h
  · intro h
    cases e : supported? ch with
    | none => rfl
    | some k => exact absurd (supported?_eq_some.1 e) (h k)

/-- Everything the glyph function answers for a supported code. -/
theorem glyphLookup_of_supported (rom : GlyphRom) {ch : CharCode} {k : SupportedChar}
    (h : supportedCode k = foldCase ch) : glyphLookup rom ch = glyphOf rom k := by
  simp [glyphLookup, supported?_eq_some.2 h]

/-- Everything the glyph function answers for an unsupported code. -/
theorem glyphLookup_of_unsupported (rom : GlyphRom) {ch : CharCode} (h : ∀ k, supportedCode k ≠ foldCase ch) :
    glyphLookup rom ch = blankPattern := by
  simp [glyphLookup, supported?_eq_none.2 h]

end Sys2Proof.Machine
end

