-- ==== Sys2Proof/Laws/FrameBuffer.lean ====
section
/-! SUPPORT. What the frame-buffer operations do, bit by bit. -/

namespace Sys2Proof.Machine

@[simp] theorem line_setLine_same (fb : FrameBuffer) (c : ComIndex) (v : Line) : (fb.setLine c v).line c = v := by
  fin_cases c <;> rfl

@[simp] theorem line_setLine_ne (fb : FrameBuffer) {c c' : ComIndex} (v : Line) (h : c' ≠ c) :
    (fb.setLine c v).line c' = fb.line c' := by
  fin_cases c <;> fin_cases c' <;> first | rfl | exact absurd rfl h

/-- Everything `setLineBit` does. -/
theorem getLsbD_setLineBit (v : Line) (b b' : BitIndex) (on : Bool) :
    (setLineBit v b on).getLsbD b'.val = if b' = b then on else v.getLsbD b'.val := by
  cases on <;> simp only [setLineBit] <;> fin_cases b <;> fin_cases b' <;> simp

/-- Everything `setBit` does: a read after the write gives what was written there and the old bit elsewhere. -/
theorem bit_setBit (fb : FrameBuffer) (a a' : BitAddr) (on : Bool) :
    (fb.setBit a on).bit a' = if a' = a then on else fb.bit a' := by
  obtain ⟨c, b⟩ := a
  obtain ⟨c', b'⟩ := a'
  by_cases hc : c' = c
  · subst hc
    simp only [FrameBuffer.bit, FrameBuffer.setBit, line_setLine_same, getLsbD_setLineBit, BitAddr.mk.injEq, true_and]
  · simp [FrameBuffer.bit, FrameBuffer.setBit, hc]

@[simp] theorem bit_zero (a : BitAddr) : FrameBuffer.zero.bit a = false := by
  obtain ⟨c, b⟩ := a
  fin_cases c <;> simp [FrameBuffer.bit, FrameBuffer.line, FrameBuffer.zero]

/-- Lines with the same bits are equal. -/
theorem line_ext {fb fb' : FrameBuffer} {c : ComIndex} (h : ∀ b, fb.bit ⟨c, b⟩ = fb'.bit ⟨c, b⟩) :
    fb.line c = fb'.line c := by
  apply BitVec.eq_of_getLsbD_eq
  intro i hi
  exact h ⟨i, hi⟩

/-- Frame buffers with the same bits are equal. -/
theorem frameBuffer_ext {fb fb' : FrameBuffer} (h : ∀ a, fb.bit a = fb'.bit a) : fb = fb' := by
  have e (c : ComIndex) : fb.line c = fb'.line c := line_ext (fun b => h ⟨c, b⟩)
  obtain ⟨l0, l1, l2, l3⟩ := fb
  obtain ⟨m0, m1, m2, m3⟩ := fb'
  have e0 := e 0
  have e1 := e 1
  have e2 := e 2
  have e3 := e 3
  simp only [FrameBuffer.line] at e0 e1 e2 e3
  subst e0 e1 e2 e3
  rfl

/-- At one digit position, distinct segments have distinct addresses. -/
theorem addr_segment_inj (geom : Geometry) (d : DigitPos) {s s' : Segment} (h : addr geom s d = addr geom s' d) :
    s = s' := by
  simp only [addr, BitAddr.mk.injEq] at h
  obtain ⟨hc, hb⟩ := h
  have hp := (bitIndex_inj hb).2
  apply slotOf_injective geom
  cases e : slotOf geom s
  cases e' : slotOf geom s'
  simp_all

/-- The scatter over a list of segments leaves every address of no listed segment alone. -/
theorem bit_scatter_other (geom : Geometry) (d : DigitPos) (pat : Pattern) (a : BitAddr) (ss : List Segment) :
    ∀ fb : FrameBuffer, (∀ s ∈ ss, addr geom s d ≠ a) →
      (ss.foldl (fun fb s => fb.setBit (addr geom s d) (segmentOn pat s)) fb).bit a = fb.bit a := by
  induction ss with
  | nil => intro fb _; rfl
  | cons x xs ih =>
    intro fb h
    rw [List.foldl_cons, ih _ (fun s hs => h s (List.mem_cons_of_mem _ hs)), bit_setBit,
      if_neg (fun e => h x List.mem_cons_self e.symm)]

/-- The scatter over a list of segments writes each listed segment's bit. -/
theorem bit_scatter_segment (geom : Geometry) (d : DigitPos) (pat : Pattern) (s : Segment) (ss : List Segment) :
    ∀ fb : FrameBuffer, s ∈ ss →
      (ss.foldl (fun fb s => fb.setBit (addr geom s d) (segmentOn pat s)) fb).bit (addr geom s d) = segmentOn pat s := by
  induction ss with
  | nil => intro fb h; cases h
  | cons x xs ih =>
    intro fb h
    rw [List.foldl_cons]
    by_cases hx : s ∈ xs
    · exact ih _ hx
    · have e : s = x := by simpa [hx] using h
      subst e
      have fresh : ∀ t ∈ xs, addr geom t d ≠ addr geom s d := by
        intro t ht et
        exact hx (addr_segment_inj geom d et ▸ ht)
      rw [bit_scatter_other _ _ _ _ _ _ fresh, bit_setBit, if_pos rfl]

/-- What `writeCell` writes: the bit of each of the cell's seven segments. -/
theorem bit_writeCell_segment (geom : Geometry) (d : DigitPos) (pat : Pattern) (fb : FrameBuffer) (s : Segment) :
    (writeCell geom d pat fb).bit (addr geom s d) = segmentOn pat s :=
  bit_scatter_segment geom d pat s segments fb (mem_segments s)

/-- What `writeCell` leaves alone: every other bit. -/
theorem bit_writeCell_other (geom : Geometry) (d : DigitPos) (pat : Pattern) (fb : FrameBuffer) {a : BitAddr}
    (h : ∀ s, addr geom s d ≠ a) : (writeCell geom d pat fb).bit a = fb.bit a :=
  bit_scatter_other geom d pat a segments fb (fun s _ => h s)

/-- Everything `cell` reads: each segment's bit. -/
theorem segmentOn_cell (geom : Geometry) (fb : FrameBuffer) (d : DigitPos) (s : Segment) :
    segmentOn (cell geom fb d) s = fb.bit (addr geom s d) := by
  simp [cell, segmentOn_patternOf, mem_segments]

end Sys2Proof.Machine
end

