-- ==== Sys2Proof/Laws/PerInstr.lean ====
section
/-! SUPPORT. Statements made for every instruction, one lemma per constructor. -/

namespace Sys2Proof.Laws

/-- The encoder puts an instruction's opcode in bits 31:28 of its word (R62, R66). -/
def OpcodePlaced.Statement (i : Instr) : Prop := opField (encode i) = i.opcode

theorem OpcodePlaced.nop : OpcodePlaced.Statement .nop := by
  rfl

theorem OpcodePlaced.clear : OpcodePlaced.Statement .clear := by
  rfl

theorem OpcodePlaced.setPattern (pos : Position) (pat : Pattern) : OpcodePlaced.Statement (.setPattern pos pat) := by
  apply BitVec.eq_of_getLsbD_eq
  intro k hk
  simp only [opField, encode, Instr.opcode, BitVec.getLsbD_extractLsb', BitVec.getLsbD_append]
  interval_cases k <;> simp

theorem OpcodePlaced.setChar (pos : Position) (ch : CharCode) : OpcodePlaced.Statement (.setChar pos ch) := by
  apply BitVec.eq_of_getLsbD_eq
  intro k hk
  simp only [opField, encode, Instr.opcode, BitVec.getLsbD_extractLsb', BitVec.getLsbD_append]
  interval_cases k <;> simp

theorem OpcodePlaced.lookup (ch : CharCode) : OpcodePlaced.Statement (.lookup ch) := by
  apply BitVec.eq_of_getLsbD_eq
  intro k hk
  simp only [opField, encode, Instr.opcode, BitVec.getLsbD_extractLsb', BitVec.getLsbD_append]
  interval_cases k <;> simp

theorem OpcodePlaced.readLine (com : BitVec 2) : OpcodePlaced.Statement (.readLine com) := by
  unfold OpcodePlaced.Statement
  revert com
  decide

theorem OpcodePlaced.flush : OpcodePlaced.Statement .flush := by
  rfl

theorem OpcodePlaced.reserved7 : OpcodePlaced.Statement .reserved7 := by
  rfl

theorem OpcodePlaced.reserved8to15 (op : BitVec 4) : OpcodePlaced.Statement (.reserved8to15 op) := by
  unfold OpcodePlaced.Statement
  revert op
  decide

end Sys2Proof.Laws
end

