-- ==== Sys2Proof/Laws/State.lean ====
section
/-! SUPPORT. What each named update of the state does to each field: one lemma per field per update. -/

namespace Sys2Proof.Machine

section Respond
variable (r : Response) (s : State)
@[simp] theorem respond_fb : (respond r s).fb = s.fb := rfl
@[simp] theorem respond_geom : (respond r s).geom = s.geom := rfl
@[simp] theorem respond_glyph : (respond r s).glyph = s.glyph := rfl
@[simp] theorem respond_periphW : (respond r s).periphW = s.periphW := rfl
@[simp] theorem respond_response : (respond r s).response = some r := rfl
@[simp] theorem respond_events : (respond r s).events = s.events := rfl
@[simp] theorem respond_port : (respond r s).port = s.port := rfl
@[simp] theorem respond_freeCount : (respond r s).freeCount = s.freeCount := rfl
end Respond

section Emit
variable (es : List PeriphEvent) (s : State)
@[simp] theorem emit_fb : (emit es s).fb = s.fb := rfl
@[simp] theorem emit_geom : (emit es s).geom = s.geom := rfl
@[simp] theorem emit_glyph : (emit es s).glyph = s.glyph := rfl
@[simp] theorem emit_periphW : (emit es s).periphW = s.periphW := rfl
@[simp] theorem emit_response : (emit es s).response = s.response := rfl
@[simp] theorem emit_events : (emit es s).events = s.events ++ es := rfl
@[simp] theorem emit_port : (emit es s).port = s.port := rfl
@[simp] theorem emit_freeCount : (emit es s).freeCount = s.freeCount := rfl
end Emit

section ClearLines
variable (s : State)
@[simp] theorem clearLines_fb : (clearLines s).fb = FrameBuffer.zero := rfl
@[simp] theorem clearLines_geom : (clearLines s).geom = s.geom := rfl
@[simp] theorem clearLines_glyph : (clearLines s).glyph = s.glyph := rfl
@[simp] theorem clearLines_periphW : (clearLines s).periphW = s.periphW := rfl
@[simp] theorem clearLines_response : (clearLines s).response = s.response := rfl
@[simp] theorem clearLines_events : (clearLines s).events = s.events := rfl
@[simp] theorem clearLines_port : (clearLines s).port = s.port := rfl
@[simp] theorem clearLines_freeCount : (clearLines s).freeCount = s.freeCount := rfl
end ClearLines

section Idle
variable (s : State)
@[simp] theorem idle_fb : (idle s).fb = s.fb := rfl
@[simp] theorem idle_geom : (idle s).geom = s.geom := rfl
@[simp] theorem idle_glyph : (idle s).glyph = s.glyph := rfl
@[simp] theorem idle_periphW : (idle s).periphW = s.periphW := rfl
@[simp] theorem idle_response : (idle s).response = none := rfl
@[simp] theorem idle_events : (idle s).events = s.events := rfl
@[simp] theorem idle_port : (idle s).port = s.port := rfl
@[simp] theorem idle_freeCount : (idle s).freeCount = s.freeCount := rfl
end Idle

section TakeReset
variable (s : State)
@[simp] theorem takeReset_fb : (takeReset s).fb = FrameBuffer.zero := rfl
@[simp] theorem takeReset_geom : (takeReset s).geom = s.geom := rfl
@[simp] theorem takeReset_glyph : (takeReset s).glyph = s.glyph := rfl
@[simp] theorem takeReset_periphW : (takeReset s).periphW = s.periphW := rfl
@[simp] theorem takeReset_response : (takeReset s).response = none := rfl
@[simp] theorem takeReset_events : (takeReset s).events = s.events := rfl
@[simp] theorem takeReset_port : (takeReset s).port = s.port := rfl
@[simp] theorem takeReset_freeCount : (takeReset s).freeCount = s.freeCount := rfl
end TakeReset

section PutPattern
variable (pos : Position) (pat : Pattern) (s : State)

/-- Everything `putPattern` does, for a position that names a digit cell. -/
theorem putPattern_of_digit (d : DigitPos) (h : digitPos? pos = some d) :
    putPattern pos pat s = { s with fb := writeCell s.geom d pat s.fb } := by
  simp [putPattern, h]

/-- Everything `putPattern` does, for a position that names none. -/
theorem putPattern_of_none (h : digitPos? pos = none) : putPattern pos pat s = s := by
  simp [putPattern, h]

@[simp] theorem putPattern_geom : (putPattern pos pat s).geom = s.geom := by
  cases h : digitPos? pos <;> simp [putPattern, h]
@[simp] theorem putPattern_glyph : (putPattern pos pat s).glyph = s.glyph := by
  cases h : digitPos? pos <;> simp [putPattern, h]
@[simp] theorem putPattern_periphW : (putPattern pos pat s).periphW = s.periphW := by
  cases h : digitPos? pos <;> simp [putPattern, h]
@[simp] theorem putPattern_response : (putPattern pos pat s).response = s.response := by
  cases h : digitPos? pos <;> simp [putPattern, h]
@[simp] theorem putPattern_events : (putPattern pos pat s).events = s.events := by
  cases h : digitPos? pos <;> simp [putPattern, h]
@[simp] theorem putPattern_port : (putPattern pos pat s).port = s.port := by
  cases h : digitPos? pos <;> simp [putPattern, h]
@[simp] theorem putPattern_freeCount : (putPattern pos pat s).freeCount = s.freeCount := by
  cases h : digitPos? pos <;> simp [putPattern, h]
end PutPattern

section EmitAbandoned
variable (i : Instr) (s : State)
@[simp] theorem emitAbandoned_fb : (emitAbandoned i s).fb = s.fb := by cases i <;> rfl
@[simp] theorem emitAbandoned_geom : (emitAbandoned i s).geom = s.geom := by cases i <;> rfl
@[simp] theorem emitAbandoned_glyph : (emitAbandoned i s).glyph = s.glyph := by cases i <;> rfl
@[simp] theorem emitAbandoned_periphW : (emitAbandoned i s).periphW = s.periphW := by cases i <;> rfl
@[simp] theorem emitAbandoned_response : (emitAbandoned i s).response = s.response := by cases i <;> rfl
@[simp] theorem emitAbandoned_port : (emitAbandoned i s).port = s.port := by cases i <;> rfl

/-- All an abandoned command can have emitted: a prefix of the five events for a FLUSH, nothing for another command. -/
theorem emitAbandoned_events :
    ∃ n ≤ 5, (emitAbandoned i s).events = s.events ++ (if i = .flush then (flushEvents s).take n else []) := by
  refine ⟨(Config.abandonedFlushEvents s.freeCount).val, by omega, ?_⟩
  cases i <;> simp [emitAbandoned]
end EmitAbandoned

end Sys2Proof.Machine
end

