-- ==== Sys2Proof/Laws/Step.lean ====
section
/-! SUPPORT. What executing a command and one step can do, said once. -/

namespace Sys2Proof.Machine

/-- Everything executing a command can do: the next state is the old one with the frame buffer of a write, or of CLEAR, or
the old one; with the events of a FLUSH, or none; and with one response. -/
theorem exec_cases (i : Instr) (s t : State) (h : exec i s = .next t) :
    (i = .nop ∧ t = respond .none s) ∨
    (i = .clear ∧ t = respond .none (clearLines s)) ∨
    (∃ pos pat, i = .setPattern pos pat ∧ t = respond .none (putPattern pos pat s)) ∨
    (∃ pos ch, i = .setChar pos ch ∧ t = respond .none (putPattern pos (glyphLookup s.glyph ch) s)) ∨
    (∃ ch, i = .lookup ch ∧ t = respond (.pat (glyphLookup s.glyph ch)) s) ∨
    (∃ com, i = .readLine com ∧ t = respond (.line (s.fb.line (comIndex com))) s) ∨
    (i = .flush ∧ t = respond .none (emit (flushEvents s) s)) ∨
    (i = .reserved7 ∧ t = respond .none s) ∨
    (∃ op, i = .reserved8to15 op ∧ t = respond .none s) := by
  cases i <;>
    simp only [exec, execNop, execClear, execSetPattern, execSetChar, execLookup, execReadLine, execFlush, execReserved7,
      execReserved8to15, Host.Outcome.next.injEq] at h <;> subst h <;> simp

/-- Executing a command leaves the tables, the port and the free-value counter alone. -/
theorem exec_frame (i : Instr) (s t : State) (h : exec i s = .next t) :
    t.geom = s.geom ∧ t.glyph = s.glyph ∧ t.periphW = s.periphW ∧ t.port = s.port ∧ t.freeCount = s.freeCount := by
  obtain ⟨-, rfl⟩ | ⟨-, rfl⟩ | ⟨_, _, -, rfl⟩ | ⟨_, _, -, rfl⟩ | ⟨_, -, rfl⟩ | ⟨_, -, rfl⟩ | ⟨-, rfl⟩ | ⟨-, rfl⟩ | ⟨_, -, rfl⟩ :=
    exec_cases i s t h <;> simp

/-- Everything one step can do, by the input at the head of the port. -/
theorem step_cases (s t : State) (h : step s = .next t) :
    (s.port = [] ∧ t = idle s) ∨
    (∃ w rest, s.port = .command w :: rest ∧ exec (decode w) { s with port := rest } = .next t) ∨
    (∃ rest, s.port = .reset :: rest ∧ t = takeReset { s with port := rest }) ∨
    (∃ w rest, s.port = .resetDuring w :: rest ∧ t = takeResetDuring (decode w) { s with port := rest }) := by
  unfold step at h
  split at h
  · next e => exact .inl ⟨e, by simpa using h.symm⟩
  · next w rest e => exact .inr (.inl ⟨w, rest, e, h⟩)
  · next rest e => exact .inr (.inr (.inl ⟨rest, e, by simpa using h.symm⟩))
  · next w rest e => exact .inr (.inr (.inr ⟨w, rest, e, by simpa using h.symm⟩))

end Sys2Proof.Machine
end

