-- ==== Sys2Proof/Tests/Slice0.lean ====
section
/-! SUPPORT. Tests. Expected values are the spec's own: the vectors of 95_test_vectors.md (the V-, P- and section numbers
below) and the examples of the rules; and, for each statement with hypotheses, one witness that they can be met. -/

namespace Sys2Proof.Machine

/-- A block with the example tables and an 8-bit peripheral, a frame buffer and inputs to take. -/
def testState (fb : FrameBuffer) (inputs : List HostInput) : State :=
  { State.resetWith geomEx glyphDefault ⟨2⟩ with fb := fb, port := inputs }

/-- The frame buffer of the next state. -/
def fbAfter : Host.Outcome State Fault Refusal → Option FrameBuffer
  | .next s => some s.fb
  | .fault _ => none
  | .refused _ => none

/-- The response of the next state. -/
def responseAfter : Host.Outcome State Fault Refusal → Option Response
  | .next s => s.response
  | .fault _ => none
  | .refused _ => none

/-- The frame buffer of P1 after its three characters. -/
def fbP1 : FrameBuffer := ⟨0x2F#6, 0x0A#6, 0x26#6, 0x05#6⟩

/-! ### Well-formedness -/

theorem test_wellFormed_refuses_low_reserved : (Instr.reserved8to15 7#4).wellFormed = false := by decide
theorem test_wellFormed_accepts_reserved8 : (Instr.reserved8to15 8#4).wellFormed = true := by decide
theorem test_geometry_refuses_shared_slot :
    geometryOf ⟨⟨0, 0⟩, ⟨0, 0⟩, ⟨2, 1⟩, ⟨3, 0⟩, ⟨2, 0⟩, ⟨1, 0⟩, ⟨1, 1⟩⟩ = none := by decide  -- V-G4
theorem test_geometry_accepts_example : geometryOf geomEx.table = some geomEx := by decide

/-! ### Decoding: one word per constructor, 95_test_vectors.md section 2.6 and R66 -/

theorem test_decode_nop : decode 0b0000_1111_1111_1111_1111_1111_1111_1111#32 = .nop := by decide
theorem test_decode_clear : decode 0b0001_1010_1011_1100_1101_1110_1111_0000#32 = .clear := by decide
theorem test_decode_setPattern :
    decode 0b0010_0010_0000_0000_0000_0000_0111_1111#32 = .setPattern 2#4 0x7F#7 := by decide
theorem test_decode_setChar :
    decode 0b0011_0000_1110_0000_0000_0000_0100_0001#32 = .setChar 0#4 0x41#21 := by decide
theorem test_decode_lookup : decode 0b0100_1111_1110_0000_0000_0000_0100_0001#32 = .lookup 0x41#21 := by decide
theorem test_decode_readLine : decode 0b0101_1111_1111_1111_1111_1111_1111_1111#32 = .readLine 3#2 := by decide
theorem test_decode_flush : decode 0b0110_0000_0000_0000_0000_0000_0000_0000#32 = .flush := by decide
theorem test_decode_reserved7 : decode 0b0111_1111_1111_1111_1111_1111_1111_1111#32 = .reserved7 := by decide
theorem test_decode_reserved15 :
    decode 0b1111_1111_1111_1111_1111_1111_1111_1111#32 = .reserved8to15 15#4 := by decide
theorem test_decodeTableWord : decodeTableWord 32 0x401FFFFF = some (.lookup 0x1FFFFF#21) := by decide
theorem test_decodeTableWord_too_long : decodeTableWord 40 0 = none := by decide

/-! ### One step of each command -/

-- V-N1
theorem test_nop : fbAfter (step (testState fbP1 [.command 0x0FFFFFFF#32])) = some fbP1 := by decide
theorem test_nop_responds : responseAfter (step (testState fbP1 [.command 0#32])) = some .none := by decide
-- V-K2
theorem test_clear : fbAfter (step (testState fbP1 [.command 0x1ABCDEF0#32])) = some ⟨0, 0, 0, 0⟩ := by decide
-- 2.3: SET_PATTERN 0, 0x2A, and the word with bits 23:7 set
theorem test_setPattern :
    fbAfter (step (testState ⟨0x3F#6, 0x3F#6, 0x3F#6, 0x15#6⟩ [.command 0x2000002A#32])) =
      some ⟨0x2F#6, 0x1F#6, 0x0F#6, 0x15#6⟩ := by decide
theorem test_setPattern_ignored_bits :
    fbAfter (step (testState fbP1 [.command 0x20FFFFFF#32])) = some ⟨0x3F#6, 0x3A#6, 0x36#6, 0x15#6⟩ := by decide
-- P1 step 3; V-C2
theorem test_setChar :
    fbAfter (step (testState ⟨0x2C#6, 0x08#6, 0x24#6, 0x04#6⟩ [.command 0x32000033#32])) = some fbP1 := by decide
theorem test_setChar_position_out_of_range :
    fbAfter (step (testState fbP1 [.command 0x3700005A#32])) = some fbP1 := by decide
-- R88 example; V-L9
theorem test_lookup_lower_case :
    responseAfter (step (testState fbP1 [.command 0x40000061#32])) = some (.pat 0x77#7) := by decide
theorem test_lookup_not_folded :
    responseAfter (step (testState fbP1 [.command 0x400000C1#32])) = some (.pat 0#7) := by decide
-- V-R1, V-R2
theorem test_readLine : responseAfter (step (testState fbP1 [.command 0x51000000#32])) = some (.line 0x0A#6) := by decide
theorem test_readLine_ignored_bits :
    responseAfter (step (testState fbP1 [.command 0x5FFFFFFF#32])) = some (.line 0x05#6) := by decide

/-- The events of the next state. -/
def eventsAfter : Host.Outcome State Fault Refusal → List PeriphEvent
  | .next s => s.events
  | .fault _ => []
  | .refused _ => []

-- R132 example, at an 8-bit peripheral
theorem test_flush :
    eventsAfter (step (testState fbP1 [.command 0x60000000#32])) =
      [.writeLine 0 8 0x2F#8, .writeLine 1 8 0x0A#8, .writeLine 2 8 0x26#8, .writeLine 3 8 0x05#8, .submitFrame] := by
  decide
-- V-X1
theorem test_reserved7 : fbAfter (step (testState fbP1 [.command 0x7FFFFFFF#32])) = some fbP1 := by decide
theorem test_reserved8to15 :
    responseAfter (step (testState fbP1 [.command 0x80000041#32])) = some .none := by decide
-- V-Z1
theorem test_reset : fbAfter (step (testState fbP1 [.reset])) = some ⟨0, 0, 0, 0⟩ := by decide
theorem test_reset_during_setChar :
    fbAfter (step (testState fbP1 [.resetDuring 0x30000041#32])) = some ⟨0, 0, 0, 0⟩ := by decide
-- R162
theorem test_idle : fbAfter (step (testState fbP1 [])) = some fbP1 := by decide
theorem test_withFetchWord_runs_next :
    responseAfter (step ((testState fbP1 [.reset]).withFetchWord 32 0x53000000)) = some (.line 0x05#6) := by decide

/-! ### The assembler: R71, R72 and P1 to P5 -/

theorem test_asm_setPattern_set :
    assembleText ['S', 'E', 'T', '_', 'P', 'A', 'T', 'T', 'E', 'R', 'N', ' ', '1', '5', ',', ' ', Char.ofNat 0x7B, 'a', ',',
      'b', ',', 'g', Char.ofNat 0x7D] = some [0x2F000043#32] := by decide
theorem test_asm_setChar_comment :
    assembleText ['S', 'E', 'T', '_', 'C', 'H', 'A', 'R', ' ', '0', ',', ' ', '\'', '1', '\'', ' ', ';', ' ', 'x'] =
      some [0x30000031#32] := by decide
theorem test_asm_lookup_codePoint :
    assembleText ['L', 'O', 'O', 'K', 'U', 'P', ' ', 'U', '+', '0', '0', 'C', '1'] = some [0x400000C1#32] := by decide
theorem test_asm_showf :
    assembleText ['S', 'H', 'O', 'W', 'F', ' ', '"', 'F', 'E', '-', '"'] =
      some [0x30000046#32, 0x31000045#32, 0x3200002D#32, 0x60000000#32] := by decide
theorem test_asm_refuses_range :
    assembleText ['R', 'E', 'A', 'D', '_', 'L', 'I', 'N', 'E', ' ', '4'] = none := by decide
theorem test_asm_source_lines :
    assembleSource ['F', 'I', 'L', 'L', ' ', '0', '\n', '\n', 'B', 'L', 'A', 'N', 'K', ' ', '1'] =
      some [0x2000007F#32, 0x21000000#32] := by decide

/-! ### Witnesses: the hypotheses of each statement can be met -/

theorem example_unused (u : Slot) (h : Unused geomEx u) : u = ⟨3, 1⟩ := by
  obtain ⟨c, p⟩ := u
  fin_cases c <;> fin_cases p
  exacts [absurd rfl (h .a), absurd rfl (h .b), absurd rfl (h .f), absurd rfl (h .g), absurd rfl (h .e),
    absurd rfl (h .c), absurd rfl (h .d), rfl]

theorem example_unusedBitsZero : UnusedBitsZero geomEx fbP1 := by
  intro u h d
  rw [example_unused u h]
  revert d
  decide

/-- A state in which a FLUSH is presented and one whole frame has been sent already. -/
def flushState : State :=
  { testState fbP1 [.command 0x60000000#32] with
    events := [.writeLine 0 8 0x2F#8, .writeLine 1 8 0x0A#8, .writeLine 2 8 0x26#8, .writeLine 3 8 0x05#8, .submitFrame] }

theorem witness_StepRunsTheDecodedCommand :
    decode 0x80000000#32 = .reserved8to15 8#4 ∧ (Instr.reserved8to15 8#4).wellFormed = true ∧ (testState fbP1 []).port = [] := by
  decide

theorem witness_OpcodeFieldSelectsCommand :
    0x0FFFFFFF#32 >>> 28 = 0#32 ∧ 0x1FFFFFFF#32 >>> 28 = 1#32 ∧ 0x2FFFFFFF#32 >>> 28 = 2#32 ∧
    0x3FFFFFFF#32 >>> 28 = 3#32 ∧ 0x4FFFFFFF#32 >>> 28 = 4#32 ∧ 0x5FFFFFFF#32 >>> 28 = 5#32 ∧
    0x6FFFFFFF#32 >>> 28 = 6#32 ∧ 0x7FFFFFFF#32 >>> 28 = 7#32 ∧
    8 ≤ (0x80000000#32 >>> 28).toNat ∧ 8 ≤ (0xFFFFFFFF#32 >>> 28).toNat := by decide

theorem witness_EveryWordMatchesExactlyItsRow : asmWord (.setChar 15#4 0x1FFFFF#21) = some 0x3F1FFFFF#32 := rfl

theorem witness_DecodeInvertsEncode :
    (Instr.setChar 15#4 0x1FFFFF#21).wellFormed = true ∧ (Instr.reserved8to15 15#4).wellFormed = true := by decide

theorem witness_GeometryRejectsSharedSlots : geometryOf geomEx.table = some geomEx := by decide

theorem witness_AddressesAreInjective : addr geomEx .c 1 = addr geomEx .c 1 ∧ addr geomEx .c 1 = ⟨2, 3⟩ := by decide

theorem witness_EachBitServesAtMostOnePair :
    (slotOf geomEx .g).com = (⟨1, 5⟩ : BitAddr).com ∧ (⟨1, 5⟩ : BitAddr).bit = bitIndex 0 (slotOf geomEx .g).pin := by decide

theorem witness_UnusedSlot : Unused geomEx ⟨3, 1⟩ := by
  intro s
  cases s <;> decide

theorem witness_UnusedSlotAlwaysReadsZero_step :
    exec (.setPattern 2#4 0x7F#7) (testState fbP1 []) =
      .next (respond .none (putPattern 2#4 0x7F#7 (testState fbP1 []))) := rfl

theorem witness_Reachable : Reachable (State.resetWith geomEx glyphDefault ⟨2⟩) (testState FrameBuffer.zero [.reset]) :=
  Reachable.present [.reset] Reachable.start

theorem witness_ResetStateHoldsSpecValues :
    (∀ w rest, (testState fbP1 [.resetDuring 0x60000000#32]).port ≠ .command w :: rest) ∧
    step (testState fbP1 [.resetDuring 0x60000000#32]) =
      .next (takeResetDuring .flush (testState fbP1 [])) := ⟨by simp [testState], rfl⟩

theorem witness_ClearZeroesAllLines : 0x1ABCDEF0#32 >>> 28 = 1#32 := by decide

theorem witness_NoCellWrite : ∀ i ∈ [Instr.nop, .lookup 0x41#21, .flush, .readLine 3#2], NoCellWrite i := by
  simp [NoCellWrite]

theorem witness_digit_positions :
    (0#4).toNat = (0 : DigitPos).val ∧ (1#4).toNat = (1 : DigitPos).val ∧ (2#4).toNat = (2 : DigitPos).val := by decide

theorem witness_positions_above_two : 2 < (3#4).toNat ∧ 2 < (15#4).toNat := by decide

theorem witness_segment_free_bit : ∀ seg, addr geomEx seg 0 ≠ ⟨3, 5⟩ := by
  intro seg
  cases seg <;> decide

theorem witness_PartialUpdateLeavesOtherCellsAlone :
    (fbAfter (exec (.setPattern 0#4 0x7F#7) (testState fbP1 []))).map (fun fb => fb.bit ⟨0, 4⟩) = some true ∧
    fbP1.bit ⟨0, 4⟩ = false ∧ owns 1 ⟨0, 3⟩ = true ∧ (1 : DigitPos) ≠ 0 := by decide

theorem witness_CellsReadBackAndDetermineTheBuffer :
    UnusedBitsZero geomEx fbP1 ∧ ∀ d, cell geomEx fbP1 d = cell geomEx fbP1 d :=
  ⟨example_unusedBitsZero, fun _ => rfl⟩

theorem witness_supported_code : supportedCode .letterA = foldCase 0x61#21 ∧ (2#4).toNat = (2 : DigitPos).val := by decide

theorem witness_unsupported_code : ∀ k, supportedCode k ≠ foldCase 0x5A#21 := by
  intro k
  cases k <;> decide

theorem witness_WritesAtDistinctPositionsCommute :
    WritesCell (.setPattern 0#4 0x7F#7) 0 ∧ WritesCell (.setChar 2#4 0x41#21) 2 ∧ (0 : DigitPos) ≠ 2 ∧
    (testState ⟨0, 0, 0, 0⟩ []).fb = ⟨0#6, 0#6, 0#6, 0#6⟩ ∧
    [Instr.setChar 2#4 0x33#21, .setChar 0#4 0x31#21, .setChar 1#4 0x32#21].Perm
      [.setChar 0#4 0x31#21, .setChar 1#4 0x32#21, .setChar 2#4 0x33#21] :=
  ⟨⟨0#4, rfl, .inl ⟨_, rfl⟩⟩, ⟨2#4, rfl, .inr ⟨_, rfl⟩⟩, by decide, rfl, by decide⟩

theorem witness_ReadLineRespondsWithTheLine :
    responseAfter (exec (.readLine 0#2) (testState fbP1 [])) = some (.line fbP1.line0) ∧
    responseAfter (exec (.readLine 3#2) (testState fbP1 [])) = some (.line fbP1.line3) := by decide

theorem witness_OnlyTheNamedCommandsUseTheLines :
    exec (.lookup 0x41#21) (testState fbP1 []) = .next (respond (.pat 0x77#7) (testState fbP1 [])) ∧
    NoCellWrite (.lookup 0x41#21) ∧ Instr.lookup 0x41#21 ≠ .clear ∧ Instr.lookup 0x41#21 ≠ .flush ∧
    (∀ com, Instr.lookup 0x41#21 ≠ .readLine com) :=
  ⟨rfl, by simp [NoCellWrite], by decide, by decide, by simp⟩

theorem witness_LinesAreIndependent :
    fbP1.line 0 = (⟨0x2F#6, 0#6, 0#6, 0#6⟩ : FrameBuffer).line 0 ∧
    exec .nop (testState fbP1 []) = .next (respond .none (testState fbP1 [])) ∧
    exec .nop (testState ⟨0x2F#6, 0#6, 0#6, 0#6⟩ []) = .next (respond .none (testState ⟨0x2F#6, 0#6, 0#6, 0#6⟩ [])) ∧
    (2#4).toNat ≠ (1 : DigitPos).val ∧ owns 1 ⟨3, 2⟩ = true :=
  ⟨by decide, rfl, rfl, by decide, by decide⟩

theorem witness_GlyphLookupFollowsTheTable :
    (0x61 ≤ (0x61#21).toNat ∧ (0x61#21).toNat ≤ 0x7A) ∧ (0x61 ≤ (0x7A#21).toNat ∧ (0x7A#21).toNat ≤ 0x7A) ∧
    ¬ (0x61 ≤ (0x60#21).toNat ∧ (0x60#21).toNat ≤ 0x7A) ∧ ¬ (0x61 ≤ (0x7B#21).toNat ∧ (0x7B#21).toNat ≤ 0x7A) ∧
    (∀ k ∈ supportedChars, supportedCode k ≠ 0x60#21 ∧ supportedCode k ≠ 0x7B#21) := by decide

theorem witness_LetterCaseDoesNotMatter :
    (0x41 ≤ (0x41#21).toNat ∧ (0x41#21).toNat ≤ 0x5A) ∧ (0x41 ≤ (0x5A#21).toNat ∧ (0x5A#21).toNat ≤ 0x5A) ∧
    (∀ k ∈ supportedChars, supportedCode k ≠ 0x5A#21) := by decide

theorem witness_PatternsAreSegmentSets :
    ∀ s : Segment, (0x43#7).getLsbD (segmentIndex s).val = (patternOf [.a, .b, .g]).getLsbD (segmentIndex s).val := by
  intro s
  cases s <;> decide

theorem witness_NopAndReservedChangeNothing :
    0x0FFFFFFF#32 >>> 28 = 0#32 ∧ 7 ≤ (0x70000000#32 >>> 28).toNat ∧ 7 ≤ (0xFFFFFFFF#32 >>> 28).toNat := by decide

theorem witness_OnlyFlushEmitsEvents : Instr.clear ≠ .flush ∧ Instr.flush = .flush := by decide

theorem witness_step : step (testState fbP1 [.reset]) = .next (testState FrameBuffer.zero []) := rfl

theorem witness_EveryCommandRespondsOnceAndForgets :
    (∀ ch, Instr.flush ≠ .lookup ch) ∧ (∀ com, Instr.flush ≠ .readLine com) := by simp

theorem witness_NoHiddenStateBetweenCommands :
    flushState.fb = (testState fbP1 []).fb ∧ flushState.geom = (testState fbP1 []).geom ∧
    flushState.glyph = (testState fbP1 []).glyph ∧ flushState.periphW = (testState fbP1 []).periphW ∧
    flushState ≠ testState fbP1 [] := by decide

theorem witness_EveryStepKeepsInvariant :
    Inv flushState ∧ step flushState = .next (respond .none (emit (flushEvents flushState) { flushState with port := [] })) := by
  refine ⟨⟨example_unusedBitsZero, ?_, ?_⟩, rfl⟩
  · intro before after h
    refine ⟨[], 0x2F#8, 0x0A#8, 0x26#8, 0x05#8, ?_⟩
    rcases before with _ | ⟨x0, _ | ⟨x1, _ | ⟨x2, _ | ⟨x3, _ | ⟨x4, before⟩⟩⟩⟩⟩ <;> simp [flushState] at h ⊢
    exact ⟨h.1.symm, h.2.1.symm, h.2.2.1.symm, h.2.2.2.1.symm⟩
  · intro c w bits h
    simp only [flushState, List.mem_cons, PeriphEvent.writeLine.injEq, reduceCtorEq, List.not_mem_nil, or_false] at h
    have clean : ∀ u, Unused geomEx u → u = ⟨3, 1⟩ := example_unused
    rcases h with ⟨rfl, rfl, h⟩ | ⟨rfl, rfl, h⟩ | ⟨rfl, rfl, h⟩ | ⟨rfl, rfl, h⟩ <;> cases h <;>
      refine ⟨rfl, fun i hi => ?_, fun u hu hc d => ?_⟩
    all_goals first
      | (rw [clean u hu]; revert d; decide)
      | (by_cases h8 : i < 8
         · interval_cases i <;> rfl
         · exact BitVec.getLsbD_of_ge _ _ (by omega))
      | (rw [clean u hu] at hc; exact absurd hc (by decide))

theorem witness_AssembledWordsDecodeToTheirCommands : assemble (.fill 2) = some [.setPattern 2#4 0x7F#7] := by decide

theorem witness_CommentsAreNotRead : ∀ c ∈ ['N', 'O', 'P', ' '], c ≠ ';' ∧ c ≠ '\'' ∧ c ≠ '"' := by
  simp

end Sys2Proof.Machine
end

/-! SUPPORT. The bits of a slot: each of the 24 frame-buffer bits is one slot's bit at one digit position (20_memory.md
R42, R45), so a bit serves at most one segment. -/

namespace Sys2Proof.Machine

/-- The bit of a slot at a digit position: the address of R42, for a slot that need not be a segment's. -/
def slotBit (u : Slot) (d : DigitPos) : BitAddr := ⟨u.com, bitIndex d u.pin⟩

theorem addr_eq_slotBit (geom : Geometry) (s : Segment) (d : DigitPos) : addr geom s d = slotBit (slotOf geom s) d := rfl

theorem slotBit_inj {u u' : Slot} {d d' : DigitPos} : slotBit u d = slotBit u' d' ↔ u = u' ∧ d = d' := by
  constructor
  · intro h
    obtain ⟨hcom, hbit⟩ := BitAddr.mk.inj h
    obtain ⟨hd, hpin⟩ := bitIndex_inj hbit
    exact ⟨congrArg₂ Slot.mk hcom hpin, hd⟩
  · rintro ⟨rfl, rfl⟩
    rfl

/-- Every bit is a slot's bit at some position: bit `b` is pin `b % 2` of position `2 - b / 2`. -/
theorem exists_eq_slotBit (a : BitAddr) : ∃ u d, a = slotBit u d := by
  obtain ⟨c, b⟩ := a
  refine ⟨⟨c, ⟨b.val % 2, by omega⟩⟩, ⟨2 - b.val / 2, by omega⟩, ?_⟩
  have hbit : b = bitIndex ⟨2 - b.val / 2, by omega⟩ ⟨b.val % 2, by omega⟩ := by
    rw [Fin.ext_iff, bitIndex_val]
    simp only
    omega
  exact congrArg (BitAddr.mk c) hbit

/-- A slot's bit belongs to the position it is taken at, and to no other (R46). -/
theorem owns_slotBit (d' : DigitPos) (u : Slot) (d : DigitPos) : owns d' (slotBit u d) = true ↔ d' = d := by
  simp only [owns, slotBit, bitIndex_val, Bool.or_eq_true, beq_iff_eq, Fin.ext_iff]
  omega

theorem addr_inj (geom : Geometry) {s s' : Segment} {d d' : DigitPos} (h : addr geom s d = addr geom s' d') :
    s = s' ∧ d = d' := by
  rw [addr_eq_slotBit, addr_eq_slotBit, slotBit_inj] at h
  exact h.imp_left (fun hslot => slotOf_injective geom hslot)

/-- A slot is unused exactly when its bit at a position is no segment's address. -/
theorem unused_iff_slotBit_ne_addr (geom : Geometry) (u : Slot) (d : DigitPos) :
    Unused geom u ↔ ∀ s d', addr geom s d' ≠ slotBit u d := by
  simp only [addr_eq_slotBit, ne_eq, slotBit_inj, Unused]
  constructor
  · exact fun h s d' e => h s e.1
  · exact fun h s e => h s d ⟨e, rfl⟩

/-- The eight slots of R45. -/
def allSlots : Finset Slot := Finset.univ.image (fun p : ComIndex × PinOffset => ⟨p.1, p.2⟩)

/-- The slots the segments use. -/
def usedSlots (geom : Geometry) : Finset Slot := segments.toFinset.image (slotOf geom)

theorem mem_allSlots (u : Slot) : u ∈ allSlots := Finset.mem_image.2 ⟨(u.com, u.pin), Finset.mem_univ _, rfl⟩

theorem card_allSlots : allSlots.card = 8 := by decide

/-- GEOM-INJ (R41): the seven segments use seven slots. -/
theorem card_usedSlots (geom : Geometry) : (usedSlots geom).card = 7 := by
  rw [usedSlots, Finset.card_image_of_injective _ (slotOf_injective geom)]
  rfl

theorem unused_iff_mem_sdiff (geom : Geometry) (u : Slot) : Unused geom u ↔ u ∈ allSlots \ usedSlots geom := by
  simp [Unused, usedSlots, mem_allSlots, mem_segments]

/-- Seven of the eight slots are used, so one is left over (R45). -/
theorem existsUnique_unused (geom : Geometry) : ∃! u, Unused geom u := by
  have hsub : usedSlots geom ⊆ allSlots := fun u _ => mem_allSlots u
  have hcard : (allSlots \ usedSlots geom).card = 1 := by
    rw [Finset.card_sdiff_of_subset hsub, card_allSlots, card_usedSlots]
  obtain ⟨u, hu⟩ := Finset.card_eq_one.1 hcard
  have hiff : ∀ v, Unused geom v ↔ v = u := fun v => by rw [unused_iff_mem_sdiff, hu, Finset.mem_singleton]
  exact ⟨u, (hiff u).2 rfl, fun v hv => (hiff v).1 hv⟩

/-- Settles O18: a bit is one slot's bit at one position, so two pairs with that bit are one pair, and it has no pair
exactly when its slot is the unused one. -/
theorem eachBitServesAtMostOnePair : Obligations.EachBitServesAtMostOnePair := by
  intro geom
  refine ⟨?_, existsUnique_unused geom, ?_⟩
  · intro a s s' d d' hcom hbit hcom' hbit'
    have haddr : addr geom s d = a := by rw [addr, hcom, ← hbit]
    have haddr' : addr geom s' d' = a := by rw [addr, hcom', ← hbit']
    exact addr_inj geom (haddr.trans haddr'.symm)
  · intro a
    constructor
    · rintro ⟨u, d, hu, rfl⟩
      exact (unused_iff_slotBit_ne_addr geom u d).1 hu
    · intro hfree
      obtain ⟨u, d, rfl⟩ := exists_eq_slotBit a
      exact ⟨u, d, (unused_iff_slotBit_ne_addr geom u d).2 hfree, rfl⟩

end Sys2Proof.Machine

/-! SUPPORT. What commands and steps read and write of the state (10_state.md R20, R22, R24, R25). -/

namespace Sys2Proof.Machine

/-- A command is one of the three that write the frame buffer, or it writes none of it (R20). -/
theorem frameBuffer_writer_cases (i : Instr) :
    i = .clear ∨ (∃ pos pat, i = .setPattern pos pat) ∨ (∃ pos ch, i = .setChar pos ch) ∨
      (i ≠ .clear ∧ NoCellWrite i) := by
  cases i <;> simp [NoCellWrite]

theorem eq_of_exec_clear {s t : State} (h : exec .clear s = .next t) : t = respond .none (clearLines s) :=
  (Host.Outcome.next.inj h).symm

theorem eq_of_exec_setPattern {pos : Position} {pat : Pattern} {s t : State} (h : exec (.setPattern pos pat) s = .next t) :
    t = respond .none (putPattern pos pat s) :=
  (Host.Outcome.next.inj h).symm

theorem eq_of_exec_setChar {pos : Position} {ch : CharCode} {s t : State} (h : exec (.setChar pos ch) s = .next t) :
    t = respond .none (putPattern pos (glyphLookup s.glyph ch) s) :=
  (Host.Outcome.next.inj h).symm

/-- The commands that write no line leave the frame buffer as it is. -/
theorem exec_fb_of_noWrite {i : Instr} {s t : State} (h : exec i s = .next t) (hclear : i ≠ .clear)
    (hcell : NoCellWrite i) : t.fb = s.fb := by
  obtain ⟨hnoPattern, hnoChar⟩ := hcell
  obtain ⟨-, rfl⟩ | ⟨rfl, -⟩ | ⟨pos, pat, rfl, -⟩ | ⟨pos, ch, rfl, -⟩ | ⟨ch, -, rfl⟩ | ⟨com, -, rfl⟩ | ⟨-, rfl⟩ |
    ⟨-, rfl⟩ | ⟨op, -, rfl⟩ := exec_cases i s t h
  · rfl
  · exact absurd rfl hclear
  · exact absurd rfl (hnoPattern pos pat)
  · exact absurd rfl (hnoChar pos ch)
  all_goals rfl

/-- The commands that read no line respond and emit alike over every frame buffer. -/
theorem exec_outputs_of_noRead {i : Instr} {s t : State} (fb : FrameBuffer) (h : exec i s = .next t)
    (hflush : i ≠ .flush) (hread : ∀ com, i ≠ .readLine com) :
    ∃ t', exec i { s with fb := fb } = .next t' ∧ t'.response = t.response ∧ t'.events = t.events := by
  obtain ⟨rfl, rfl⟩ | ⟨rfl, rfl⟩ | ⟨pos, pat, rfl, rfl⟩ | ⟨pos, ch, rfl, rfl⟩ | ⟨ch, rfl, rfl⟩ | ⟨com, rfl, -⟩ |
    ⟨rfl, -⟩ | ⟨rfl, rfl⟩ | ⟨op, rfl, rfl⟩ := exec_cases i s t h
  · exact ⟨_, rfl, rfl, rfl⟩
  · exact ⟨_, rfl, rfl, rfl⟩
  · exact ⟨_, rfl, rfl, by simp⟩
  · exact ⟨_, rfl, rfl, by simp⟩
  · exact ⟨_, rfl, rfl, rfl⟩
  · exact absurd rfl (hread com)
  · exact absurd rfl hflush
  all_goals exact ⟨_, rfl, rfl, rfl⟩

/-- Settles O31, by the kinds of command (`exec_cases`). -/
theorem onlyTheNamedCommandsUseTheLines : Obligations.OnlyTheNamedCommandsUseTheLines :=
  ⟨fun _ _ _ h hclear hcell => exec_fb_of_noWrite h hclear hcell,
    fun _ _ _ fb h hflush hread => exec_outputs_of_noRead fb h hflush hread⟩

/-- The scatter into a cell makes of a line what that line and the Pattern give, whatever the other lines hold. -/
theorem line_writeCell_congr (geom : Geometry) (d : DigitPos) (pat : Pattern) {fb fb' : FrameBuffer} {c : ComIndex}
    (h : fb.line c = fb'.line c) : (writeCell geom d pat fb).line c = (writeCell geom d pat fb').line c := by
  apply line_ext
  intro b
  by_cases hseg : ∃ s, addr geom s d = ⟨c, b⟩
  · obtain ⟨s, hs⟩ := hseg
    rw [← hs, bit_writeCell_segment, bit_writeCell_segment]
  · have hother : ∀ s, addr geom s d ≠ ⟨c, b⟩ := not_exists.1 hseg
    rw [bit_writeCell_other _ _ _ _ hother, bit_writeCell_other _ _ _ _ hother, FrameBuffer.bit, FrameBuffer.bit, h]

theorem line_putPattern_congr (pos : Position) (pat : Pattern) {s s' : State} {c : ComIndex} (hgeom : s.geom = s'.geom)
    (hline : s.fb.line c = s'.fb.line c) : (putPattern pos pat s).fb.line c = (putPattern pos pat s').fb.line c := by
  cases hd : digitPos? pos with
  | none => rwa [putPattern_of_none _ _ _ hd, putPattern_of_none _ _ _ hd]
  | some d =>
    rw [putPattern_of_digit _ _ _ d hd, putPattern_of_digit _ _ _ d hd, hgeom]
    exact line_writeCell_congr s'.geom d pat hline

/-- A line after a command depends on the tables and on that line before it. -/
theorem line_exec_congr {i : Instr} {s s' t t' : State} {c : ComIndex} (hgeom : s.geom = s'.geom)
    (hglyph : s.glyph = s'.glyph) (hline : s.fb.line c = s'.fb.line c) (h : exec i s = .next t)
    (h' : exec i s' = .next t') : t.fb.line c = t'.fb.line c := by
  obtain rfl | ⟨pos, pat, rfl⟩ | ⟨pos, ch, rfl⟩ | ⟨hclear, hcell⟩ := frameBuffer_writer_cases i
  · rw [eq_of_exec_clear h, eq_of_exec_clear h', respond_fb, respond_fb, clearLines_fb, clearLines_fb]
  · rw [eq_of_exec_setPattern h, eq_of_exec_setPattern h']
    exact line_putPattern_congr pos pat hgeom hline
  · rw [eq_of_exec_setChar h, eq_of_exec_setChar h', hglyph]
    exact line_putPattern_congr pos _ hgeom hline
  · rwa [exec_fb_of_noWrite h hclear hcell, exec_fb_of_noWrite h' hclear hcell]

/-- `putPattern` leaves every bit of another position alone (R22). -/
theorem bit_putPattern_of_owns_other (pos : Position) (pat : Pattern) (s : State) {d' : DigitPos} {a : BitAddr}
    (hpos : pos.toNat ≠ d'.val) (howns : owns d' a = true) : (putPattern pos pat s).fb.bit a = s.fb.bit a := by
  cases hd : digitPos? pos with
  | none => rw [putPattern_of_none _ _ _ hd]
  | some d =>
    have hother : ∀ seg, addr s.geom seg d ≠ a := by
      rintro seg rfl
      rw [addr_eq_slotBit, owns_slotBit] at howns
      exact hpos (by rw [digitPos?_eq_some hd, howns])
    rw [putPattern_of_digit _ _ _ d hd]
    exact bit_writeCell_other s.geom d pat s.fb hother

/-- Settles O32, bit by bit: a bit of a line becomes a segment of the Pattern or stays as it is. -/
theorem linesAreIndependent : Obligations.LinesAreIndependent := by
  refine ⟨fun i s s' t t' c hgeom hglyph hline h h' => line_exec_congr hgeom hglyph hline h h', ?_⟩
  intro s t pos pat d' a h hpos howns
  rw [eq_of_exec_setPattern h]
  exact bit_putPattern_of_owns_other pos pat s hpos howns

/-- Settles O42, by the kinds of input a step takes. -/
theorem noStepWritesATable : Obligations.NoStepWritesATable := by
  intro s t h
  obtain ⟨-, rfl⟩ | ⟨w, rest, -, hexec⟩ | ⟨rest, -, rfl⟩ | ⟨w, rest, -, rfl⟩ := step_cases s t h
  · simp
  · obtain ⟨hgeom, hglyph, hwidth, -, -⟩ := exec_frame _ _ _ hexec
    exact ⟨hgeom, hglyph, hwidth⟩
  · simp
  · simp [takeResetDuring]

/-- Every command responds, in the kind R25 gives it. -/
theorem exec_response_kind (i : Instr) (s : State) :
    ∃ t r, exec i s = .next t ∧ t.response = some r ∧
      (∀ ch, i = .lookup ch → ∃ p, r = .pat p) ∧
      (∀ com, i = .readLine com → ∃ v, r = .line v) ∧
      ((∀ ch, i ≠ .lookup ch) → (∀ com, i ≠ .readLine com) → r = .none) := by
  cases i with
  | lookup ch => exact ⟨_, _, rfl, rfl, fun _ _ => ⟨_, rfl⟩, by simp, fun hne _ => absurd rfl (hne ch)⟩
  | readLine com => exact ⟨_, _, rfl, rfl, by simp, fun _ _ => ⟨_, rfl⟩, fun _ hne => absurd rfl (hne com)⟩
  | _ => exact ⟨_, _, rfl, rfl, by simp, by simp, fun _ _ => rfl⟩

theorem putPattern_setResponse (pos : Position) (pat : Pattern) (s : State) (r : Option Response) :
    putPattern pos pat { s with response := r } = { putPattern pos pat s with response := r } := by
  cases hd : digitPos? pos with
  | none => rw [putPattern_of_none _ _ _ hd, putPattern_of_none _ _ _ hd]
  | some d => rw [putPattern_of_digit _ _ _ d hd, putPattern_of_digit _ _ _ d hd]

/-- A command overwrites the response the channel held, without reading it. -/
theorem exec_setResponse (i : Instr) (s : State) (r : Option Response) : exec i { s with response := r } = exec i s := by
  cases i with
  | setPattern pos pat => simp only [exec, execSetPattern, putPattern_setResponse]; rfl
  | setChar pos ch => simp only [exec, execSetChar, putPattern_setResponse]; rfl
  | _ => rfl

theorem takeResetDuring_setResponse (i : Instr) (s : State) (r : Option Response) :
    takeResetDuring i { s with response := r } = takeResetDuring i s := by
  cases i <;> rfl

theorem step_setResponse (s : State) (r : Option Response) : step { s with response := r } = step s := by
  obtain ⟨fb, geom, glyph, periphW, response, events, port, freeCount⟩ := s
  cases port with
  | nil => rfl
  | cons input rest =>
    cases input with
    | command w => exact exec_setResponse (decode w) ⟨fb, geom, glyph, periphW, response, events, rest, freeCount⟩ r
    | reset => rfl
    | resetDuring w =>
      exact congrArg Host.Outcome.next
        (takeResetDuring_setResponse (decode w) ⟨fb, geom, glyph, periphW, response, events, rest, freeCount⟩ r)

/-- Settles O43, by the kinds of command, and of input for the second clause. -/
theorem everyCommandRespondsOnceAndForgets : Obligations.EveryCommandRespondsOnceAndForgets :=
  ⟨exec_response_kind, step_setResponse⟩

end Sys2Proof.Machine

/-! SUPPORT. The order of commands and the address map (20_memory.md R41, R43, R52). -/

namespace Sys2Proof.Machine

section Port
variable (p : List HostInput)

theorem putPattern_setPort (pos : Position) (pat : Pattern) (s : State) :
    putPattern pos pat { s with port := p } = { putPattern pos pat s with port := p } := by
  cases hd : digitPos? pos with
  | none => rw [putPattern_of_none _ _ _ hd, putPattern_of_none _ _ _ hd]
  | some d => rw [putPattern_of_digit _ _ _ d hd, putPattern_of_digit _ _ _ d hd]

/-- A command neither reads nor writes the inputs that wait behind it: it completes alike over any port. -/
theorem exec_setPort {i : Instr} {s t : State} (h : exec i s = .next t) :
    exec i { s with port := p } = .next { t with port := p } := by
  cases i with
  | setPattern pos pat =>
    rw [eq_of_exec_setPattern h]
    exact congrArg (fun u => Host.Outcome.next (respond .none u)) (putPattern_setPort p pos pat s)
  | setChar pos ch =>
    rw [eq_of_exec_setChar h]
    exact congrArg (fun u => Host.Outcome.next (respond .none u)) (putPattern_setPort p pos (glyphLookup s.glyph ch) s)
  | _ => cases h; rfl

end Port

theorem run_succ_of_next {M : Host.Core} {s t : M.State} (h : M.step s = .next t) (k : Nat) :
    M.run (k + 1) s = M.run k t := by
  simp only [Host.Core.run, h]

theorem step_command (s : State) (w : Word) (rest : List HostInput) :
    step { s with port := .command w :: rest } = exec (decode w) { s with port := rest } := rfl

/-- One more step of a run with a command word next: the run goes on after that command, with the word taken. -/
theorem run_succ_of_command {s t : State} {w : Word} (h : exec (decode w) s = .next t) (k : Nat) (rest : List HostInput) :
    Host.Core.run core (k + 1) { s with port := .command w :: rest } = Host.Core.run core k { t with port := rest } := by
  have hstep : core.step { s with port := .command w :: rest } = .next { t with port := rest } :=
    (step_command s w rest).trans (exec_setPort rest h)
  exact run_succ_of_next hstep k

theorem execAll_cons_of_next {i : Instr} {s t : State} (h : exec i s = .next t) (is : List Instr) :
    execAll (i :: is) s = execAll is t := by
  rw [execAll, h]

/-- Settles O5, by induction on the presented words: each step takes one word and runs its command, which does not see the
words behind it (`exec_setPort`). -/
theorem commandsTakeEffectInPresentedOrder : Obligations.CommandsTakeEffectInPresentedOrder := by
  intro ws
  induction ws with
  | nil => exact fun _ => rfl
  | cons w ws ih =>
    intro s
    obtain ⟨t, _, hexec, -⟩ := exec_response_kind (decode w) s
    rw [List.map_cons, List.map_cons, execAll_cons_of_next (exec_setPort [] hexec)]
    exact (run_succ_of_command hexec ws.length _).trans (ih t)

theorem geometryOf_eq_none_iff (t : GeomTable) : geometryOf t = none ↔ ¬ t.Inj := by
  simp [geometryOf]

theorem table_of_geometryOf_eq_some {t : GeomTable} {g : Geometry} (h : geometryOf t = some g) : g.table = t := by
  unfold geometryOf at h
  split at h
  · cases h; rfl
  · cases h

/-- Settles O13: a table is rejected when it is not GEOM-INJ, that is when its segment map is not injective. -/
theorem geometryRejectsSharedSlots : Obligations.GeometryRejectsSharedSlots := by
  intro t
  constructor
  · rw [geometryOf_eq_none_iff, ← tableSlot_injective_iff, Function.not_injective_iff]
    simp only [and_comm, ne_eq]
  · intro g h s
    rw [slotOf, table_of_geometryOf_eq_some h]

/-- `Own(d)` (R46) is the two bits of position d, one per pin. -/
theorem owns_iff_eq_bitIndex (d : DigitPos) (a : BitAddr) :
    owns d a = true ↔ a.bit = bitIndex d 0 ∨ a.bit = bitIndex d 1 := by
  simp [owns, Fin.ext_iff, bitIndex_val]

theorem bitIndex_one_val (d : DigitPos) : (bitIndex d 1).val = (bitIndex d 0).val + 1 := by
  simp [bitIndex_val]

/-- Settles O15: the six bit indices are closed facts, the other clauses hold at every position. -/
theorem digitPositionsPackInReverse : Obligations.DigitPositionsPackInReverse :=
  ⟨by decide, fun d c b => owns_iff_eq_bitIndex d ⟨c, b⟩, bitIndex_one_val⟩

end Sys2Proof.Machine

/-! SUPPORT. What the decoder reads of a word: the `op` field chooses the row and the command, and masking the ignored bits
off keeps every field its format has (30_encoding.md R62, R63, R66, R70). -/

namespace Sys2Proof.Machine

section Fields
variable {w m : Word}

/-- Masking keeps a field that lies wholly in the mask. -/
theorem extractLsb'_and_of_allOnes {start len : Nat} (h : m.extractLsb' start len = BitVec.allOnes len) :
    (w &&& m).extractLsb' start len = w.extractLsb' start len := by
  rw [BitVec.extractLsb'_and, h, BitVec.and_allOnes]

theorem opField_and (h : opField m = BitVec.allOnes 4) : opField (w &&& m) = opField w :=
  extractLsb'_and_of_allOnes h

theorem posField_and (h : posField m = BitVec.allOnes 4) : posField (w &&& m) = posField w :=
  extractLsb'_and_of_allOnes h

theorem patField_and (h : patField m = BitVec.allOnes 7) : patField (w &&& m) = patField w :=
  extractLsb'_and_of_allOnes h

theorem chField_and (h : chField m = BitVec.allOnes 21) : chField (w &&& m) = chField w :=
  extractLsb'_and_of_allOnes h

theorem comField_and (h : comField m = BitVec.allOnes 2) : comField (w &&& m) = comField w :=
  extractLsb'_and_of_allOnes h

end Fields

/-- The mask of the `op` field leaves the opcode and 28 zeros. -/
theorem and_opMask (w : Word) : w &&& 0xF0000000#32 = opField w ++ 0#28 := by
  have hword : w = opField w ++ w.extractLsb' 0 28 := (BitVec.extractLsb'_append_extractLsb' (w := 4) (len := 28)).symm
  have hmask : 0xF0000000#32 = BitVec.allOnes 4 ++ 0#28 := by decide
  calc w &&& 0xF0000000#32
    _ = (opField w ++ w.extractLsb' 0 28) &&& (BitVec.allOnes 4 ++ 0#28) := by rw [← hword, hmask]
    _ = opField w ++ 0#28 := by rw [BitVec.and_append, BitVec.and_allOnes, BitVec.and_zero]

/-! ### The rows of the opcode map -/

/-- No row looks below the `op` field (R66). -/
theorem maskBits_and_opMask : ∀ r ∈ opcodeRows, r.maskBits &&& 0xF0000000#32 = r.maskBits := by decide

theorem accepts_eq_accepts_opcode {r : OpcodeRow} (hr : r ∈ opcodeRows) (w : Word) :
    r.accepts w = r.accepts (opField w ++ 0#28) := by
  have hmasked : (w &&& 0xF0000000#32) &&& r.maskBits = w &&& r.maskBits := by
    rw [BitVec.and_assoc, BitVec.and_comm _ r.maskBits, maskBits_and_opMask r hr]
  rw [← and_opMask, OpcodeRow.accepts, OpcodeRow.accepts, hmasked]

theorem mnemonic_decode_congr {w w' : Word} (h : opField w = opField w') :
    (decode w).mnemonic = (decode w').mnemonic := by
  simp only [decode, h]
  split <;> rfl

/-- The row of each opcode, by the sixteen opcodes. -/
theorem rows_accepting_opcode : ∀ op : BitVec 4,
    (opcodeRows.filter (fun r => r.accepts (op ++ 0#28))).map OpcodeRow.mnemonic = [(decode (op ++ 0#28)).mnemonic] := by
  decide

/-- A word matches the row of its command and no other, since the rows and the choice of command see its opcode only. -/
theorem rows_accepting_word (w : Word) :
    (opcodeRows.filter (fun r => r.accepts w)).map OpcodeRow.mnemonic = [(decode w).mnemonic] := by
  have hrows : opcodeRows.filter (fun r => r.accepts w) = opcodeRows.filter (fun r => r.accepts (opField w ++ 0#28)) :=
    List.filter_congr (fun r hr => accepts_eq_accepts_opcode hr w)
  have hop : opField (opField w ++ 0#28) = opField w := by
    rw [← and_opMask, opField_and (by decide)]
  rw [hrows, rows_accepting_opcode, mnemonic_decode_congr hop]

/-! ### The ignored bits -/

/-- No format ignores a bit of the `op` field (R62). -/
theorem opField_formatMask (w : Word) : opField (formatMask w) = BitVec.allOnes 4 := by
  unfold formatMask
  split <;> decide

/-- Clearing the ignored bits changes neither the command nor its operands (R66): each format's mask covers the fields that
the format's command reads. -/
theorem decode_and_formatMask (w : Word) : decode (w &&& formatMask w) = decode w := by
  have hop : opField (w &&& formatMask w) = opField w := opField_and (opField_formatMask w)
  unfold decode
  rw [hop]
  split
  · rfl
  · rfl
  next e =>
    have hmask : formatMask w = 0xFF00007F#32 := by simp only [formatMask, e]
    rw [hmask, posField_and (by decide), patField_and (by decide)]
  next e =>
    have hmask : formatMask w = 0xFF1FFFFF#32 := by simp only [formatMask, e]
    rw [hmask, posField_and (by decide), chField_and (by decide)]
  next e =>
    have hmask : formatMask w = 0xF01FFFFF#32 := by simp only [formatMask, e]
    rw [hmask, chField_and (by decide)]
  next e =>
    have hmask : formatMask w = 0xF3000000#32 := by simp only [formatMask, e]
    rw [hmask, comField_and (by decide)]
  · rfl
  · rfl
  · rfl

/-- The assembler writes a command's own word. -/
theorem eq_encode_of_asmWord {i : Instr} {w : Word} (h : asmWord i = some w) : w = encode i := by
  cases i with
  | reserved7 => cases h
  | reserved8to15 op => cases h
  | _ => exact (Option.some.inj h).symm

theorem opField_encode (i : Instr) : opField (encode i) = i.opcode := by
  cases i with
  | nop => exact Laws.OpcodePlaced.nop
  | clear => exact Laws.OpcodePlaced.clear
  | setPattern pos pat => exact Laws.OpcodePlaced.setPattern pos pat
  | setChar pos ch => exact Laws.OpcodePlaced.setChar pos ch
  | lookup ch => exact Laws.OpcodePlaced.lookup ch
  | readLine com => exact Laws.OpcodePlaced.readLine com
  | flush => exact Laws.OpcodePlaced.flush
  | reserved7 => exact Laws.OpcodePlaced.reserved7
  | reserved8to15 op => exact Laws.OpcodePlaced.reserved8to15 op

/-- A word with an ignored gap is unchanged under the mask of the bits above and below the gap. -/
theorem append_and_gapMask {h g n : Nat} (hi : BitVec h) (lo : BitVec n) :
    (hi ++ 0#g ++ lo) &&& (BitVec.allOnes h ++ 0#g ++ BitVec.allOnes n) = hi ++ 0#g ++ lo := by
  rw [BitVec.and_append, BitVec.and_append, BitVec.and_allOnes, BitVec.and_allOnes, BitVec.and_zero]

/-- The encoder writes the ignored bits as 0 (R66): a word with a Pattern or a character has one ignored gap. -/
theorem encode_and_formatMask (i : Instr) : encode i &&& formatMask (encode i) = encode i := by
  cases i with
  | setPattern pos pat =>
    have hmask : formatMask (encode (.setPattern pos pat)) = BitVec.allOnes 8 ++ 0#17 ++ BitVec.allOnes 7 := by
      rw [formatMask, opField_encode]; rfl
    rw [hmask]
    exact append_and_gapMask (0x2#4 ++ pos) pat
  | setChar pos ch =>
    have hmask : formatMask (encode (.setChar pos ch)) = BitVec.allOnes 8 ++ 0#3 ++ BitVec.allOnes 21 := by
      rw [formatMask, opField_encode]; rfl
    rw [hmask]
    exact append_and_gapMask (0x3#4 ++ pos) ch
  | lookup ch =>
    have hmask : formatMask (encode (.lookup ch)) = BitVec.allOnes 4 ++ 0#7 ++ BitVec.allOnes 21 := by
      rw [formatMask, opField_encode]; rfl
    rw [hmask]
    exact append_and_gapMask 0x4#4 ch
  | readLine com => revert com; decide
  | reserved8to15 op => revert op; decide
  | _ => decide

/-- Settles O9: the rows by opcode, the decoder by its fields, the assembler's words by the encoder. -/
theorem everyWordMatchesExactlyItsRow : Obligations.EveryWordMatchesExactlyItsRow := by
  refine ⟨rows_accepting_word, decode_and_formatMask, ?_⟩
  intro i w h
  rw [eq_encode_of_asmWord h, encode_and_formatMask]

/-- SET_PATTERN at a position above 2 only responds (R105). -/
theorem exec_setPattern_of_gt {pos : Position} (h : 2 < pos.toNat) (pat : Pattern) (s : State) :
    exec (.setPattern pos pat) s = .next (respond .none s) := by
  rw [exec, execSetPattern, putPattern_of_none _ _ _ (digitPos?_of_gt h)]

/-- The example word of R70. -/
theorem decode_exampleWord : decode 0x2FFFFF80#32 = .setPattern 15#4 0#7 := by decide

/-- Settles O10: a step reads a word through the decoder alone. -/
theorem ignoredBitsDoNotChangeExecution : Obligations.IgnoredBitsDoNotChangeExecution := by
  refine ⟨?_, decode_exampleWord, ?_⟩
  · intro s w rest
    rw [step_command, step_command, decode_and_formatMask]
  · intro s
    rw [step_command, decode_exampleWord, exec_setPattern_of_gt (by decide)]
    rfl

/-! ### The pseudo-instructions -/

theorem asmField_of_lt {width n : Nat} (h : n < 2 ^ width) : asmField width n = some (BitVec.ofNat width n) :=
  if_pos h

/-- Every character has a code of 21 bits (R65). -/
theorem char_toNat_lt (c : Char) : c.toNat < 2 ^ 21 := by
  obtain hlow | ⟨-, hhigh⟩ := c.valid
  · exact Nat.lt_trans hlow (by decide)
  · exact Nat.lt_trans hhigh (by decide)

theorem asmCh_quoted (c : Char) : asmCh (.quoted c) = some (BitVec.ofNat 21 c.toNat) :=
  asmField_of_lt (char_toNat_lt c)

/-- A quoted character at a position in range is accepted. -/
theorem asmSetChar_quoted {pos : Nat} (h : pos < 2 ^ 4) (c : Char) :
    asmSetChar pos (.quoted c) = some (.setChar (BitVec.ofNat 4 pos) (BitVec.ofNat 21 c.toNat)) := by
  rw [asmSetChar, asmField_of_lt h, asmCh_quoted]
  rfl

/-- `SHOW` is never refused: its positions and characters are in range. -/
theorem asmShow_eq (x y z : Char) :
    asmShow x y z = some [.setChar 0#4 (BitVec.ofNat 21 x.toNat), .setChar 1#4 (BitVec.ofNat 21 y.toNat),
      .setChar 2#4 (BitVec.ofNat 21 z.toNat)] := by
  rw [asmShow, asmSetChar_quoted (by decide), asmSetChar_quoted (by decide), asmSetChar_quoted (by decide)]
  rfl

/-- Settles O49: `SHOW` and `SHOWF` expand as `asmShow_eq` says, the other expansions stand in `assemble` itself. -/
theorem pseudoInstructionsExpand : Obligations.PseudoInstructionsExpand := by
  refine ⟨fun _ => rfl, fun _ => rfl, asmShow_eq, ?_, rfl⟩
  intro x y z
  rw [assemble, asmShow_eq]
  rfl

end Sys2Proof.Machine

/-! SUPPORT. The glyph function through its folding, the fields of a word as shifts, and LOOKUP (30_encoding.md R63,
40_glyph_lookup.md R82, R84, R88). -/

namespace Sys2Proof.Machine

/-! ### Patterns as segment sets -/

theorem segmentOn_patternOf_iff (ss : List Segment) (s : Segment) : segmentOn (patternOf ss) s = true ↔ s ∈ ss := by
  rw [segmentOn_patternOf, decide_eq_true_iff]

/-- Settles O36: a bit by `segmentOn_patternOf_iff`, equality by `pattern_ext`. -/
theorem patternsAreSegmentSets : Obligations.PatternsAreSegmentSets :=
  ⟨segmentOn_patternOf_iff, rfl, by decide, fun _ _ => pattern_ext⟩

/-! ### Case folding -/

/-- The ASCII lower-case codes, those that folding changes (R82). -/
def IsLowerCode (n : Nat) : Prop := 0x61 ≤ n ∧ n ≤ 0x7A

theorem foldCase_of_lower {ch : CharCode} (h : IsLowerCode ch.toNat) : foldCase ch = ch - 0x20#21 := if_pos h

theorem foldCase_of_not_lower {ch : CharCode} (h : ¬ IsLowerCode ch.toNat) : foldCase ch = ch := if_neg h

theorem toNat_foldCase_of_lower {ch : CharCode} (h : IsLowerCode ch.toNat) : (foldCase ch).toNat = ch.toNat - 0x20 := by
  obtain ⟨hlow, hhigh⟩ := h
  rw [foldCase_of_lower ⟨hlow, hhigh⟩]
  bv_omega

/-- Upper case is 0x41..0x5A, which does not meet lower case. -/
theorem not_isLowerCode_foldCase (ch : CharCode) : ¬ IsLowerCode (foldCase ch).toNat := by
  by_cases h : IsLowerCode ch.toNat
  · rw [toNat_foldCase_of_lower h]
    unfold IsLowerCode at h ⊢
    omega
  · rwa [foldCase_of_not_lower h]

theorem not_isLowerCode_supportedCode (k : SupportedChar) : ¬ IsLowerCode (supportedCode k).toNat := by
  unfold IsLowerCode
  cases k <;> decide

@[simp] theorem foldCase_foldCase (ch : CharCode) : foldCase (foldCase ch) = foldCase ch :=
  foldCase_of_not_lower (not_isLowerCode_foldCase ch)

@[simp] theorem foldCase_supportedCode (k : SupportedChar) : foldCase (supportedCode k) = supportedCode k :=
  foldCase_of_not_lower (not_isLowerCode_supportedCode k)

/-- The glyph function sees a code only through its folding. -/
theorem glyphLookup_congr (rom : GlyphRom) {ch ch' : CharCode} (h : foldCase ch = foldCase ch') :
    glyphLookup rom ch = glyphLookup rom ch' := by
  rw [glyphLookup, glyphLookup, h]

theorem glyphLookup_supportedCode (rom : GlyphRom) (k : SupportedChar) :
    glyphLookup rom (supportedCode k) = glyphOf rom k :=
  glyphLookup_of_supported rom (foldCase_supportedCode k).symm

theorem glyphLookup_of_lower (rom : GlyphRom) {ch : CharCode} (h : IsLowerCode ch.toNat) :
    glyphLookup rom ch = glyphLookup rom (ch - 0x20#21) := by
  rw [← foldCase_of_lower h]
  exact glyphLookup_congr rom (foldCase_foldCase ch).symm

/-! ### The codes that can give a nonblank Pattern -/

/-- A ROM without a blank entry: the codes it maps to a nonblank Pattern are those that any ROM can. -/
def allSegmentsRom : GlyphRom :=
  ⟨0x7F#7, 0x7F#7, 0x7F#7, 0x7F#7, 0x7F#7, 0x7F#7, 0x7F#7, 0x7F#7, 0x7F#7, 0x7F#7,
    0x7F#7, 0x7F#7, 0x7F#7, 0x7F#7, 0x7F#7, 0x7F#7, 0x7F#7, 0x7F#7, 0x7F#7, 0x7F#7,
    0x7F#7⟩

theorem glyphOf_allSegmentsRom (k : SupportedChar) : glyphOf allSegmentsRom k = 0x7F#7 := by cases k <;> rfl

/-- Some ROM gives a code a nonblank Pattern exactly when the code folds to a supported one. -/
theorem exists_glyphLookup_ne_blank_iff (ch : CharCode) :
    (∃ rom, glyphLookup rom ch ≠ 0#7) ↔ ∃ k, supportedCode k = foldCase ch := by
  constructor
  · rintro ⟨rom, hne⟩
    by_contra hnone
    exact hne (glyphLookup_of_unsupported rom (not_exists.1 hnone))
  · rintro ⟨k, hk⟩
    refine ⟨allSegmentsRom, ?_⟩
    rw [glyphLookup_of_supported _ hk, glyphOf_allSegmentsRom]
    decide

/-- The codes of SUPPORTED (R81), as numbers. -/
def supportedCodes : List Nat := supportedChars.map (fun k => (supportedCode k).toNat)

/-- The lower-case codes of the ten letters of SUPPORTED: a..f, r, o, n, t (R82). -/
def lowerLetterCodes : List Nat := [0x61, 0x62, 0x63, 0x64, 0x65, 0x66, 0x72, 0x6F, 0x6E, 0x74]

theorem exists_supportedCode_eq_iff (ch : CharCode) :
    (∃ k, supportedCode k = ch) ↔ ch.toNat ∈ supportedCodes := by
  simp [supportedCodes, mem_supportedChars, BitVec.toNat_inj]

theorem isLowerCode_of_mem_lowerLetterCodes {n : Nat} (h : n ∈ lowerLetterCodes) : IsLowerCode n := by
  have hall : ∀ n ∈ lowerLetterCodes, 0x61 ≤ n ∧ n ≤ 0x7A := by decide
  exact hall n h

/-- A lower-case code is one of the 31 exactly when its upper case is supported: checked for the 26 letters. -/
theorem sub_mem_supportedCodes_iff {n : Nat} (h : IsLowerCode n) :
    n - 0x20 ∈ supportedCodes ↔ n ∈ supportedCodes ++ lowerLetterCodes := by
  obtain ⟨hlow, hhigh⟩ := h
  interval_cases n <;> decide

theorem foldCase_mem_supportedCodes_iff (ch : CharCode) :
    (foldCase ch).toNat ∈ supportedCodes ↔ ch.toNat ∈ supportedCodes ++ lowerLetterCodes := by
  by_cases h : IsLowerCode ch.toNat
  · rw [toNat_foldCase_of_lower h, sub_mem_supportedCodes_iff h]
  · rw [foldCase_of_not_lower h, List.mem_append, or_iff_left (mt isLowerCode_of_mem_lowerLetterCodes h)]

/-- Settles O34, by the folding: a code gives what its folded code gives, and that is an entry or blank. The rule's
list of 31 codes is `supportedCodes ++ lowerLetterCodes`, evaluated. -/
theorem glyphLookupFollowsTheTable : Obligations.GlyphLookupFollowsTheTable := by
  refine ⟨glyphLookup_supportedCode, fun rom ch hlow hhigh => glyphLookup_of_lower rom ⟨hlow, hhigh⟩, ?_, ?_⟩
  · intro rom ch hunsupported hnotLower
    apply glyphLookup_of_unsupported
    rwa [foldCase_of_not_lower hnotLower]
  · intro ch
    calc (∃ rom, glyphLookup rom ch ≠ 0#7)
      _ ↔ ∃ k, supportedCode k = foldCase ch := exists_glyphLookup_ne_blank_iff ch
      _ ↔ (foldCase ch).toNat ∈ supportedCodes := exists_supportedCode_eq_iff (foldCase ch)
      _ ↔ ch.toNat ∈ supportedCodes ++ lowerLetterCodes := foldCase_mem_supportedCodes_iff ch

/-! ### LOOKUP -/

theorem opField_eq_setWidth_shift (w : Word) : opField w = (w >>> 28).setWidth 4 := by
  apply BitVec.eq_of_toNat_eq
  simp [opField]

theorem chField_eq_setWidth (w : Word) : chField w = w.setWidth 21 := by
  apply BitVec.eq_of_toNat_eq
  simp [chField]

theorem decode_of_opcode_lookup {w : Word} (h : w >>> 28 = 4#32) : decode w = .lookup (w.setWidth 21) := by
  have hop : opField w = 4#4 := by rw [opField_eq_setWidth_shift, h]; rfl
  rw [← chField_eq_setWidth, decode, hop]
  rfl

/-- LOOKUP only responds (R88). -/
theorem exec_lookup (ch : CharCode) (s : State) :
    exec (.lookup ch) s = .next (respond (.pat (glyphLookup s.glyph ch)) s) := rfl

/-- Settles O37: `exec_lookup`, and the glyph function's entry for a supported and an unsupported code. -/
theorem lookupRespondsWithThePattern : Obligations.LookupRespondsWithThePattern := by
  refine ⟨fun s ch => exec_lookup ch s, ?_, ?_, ?_⟩
  · intro s ch hunsupported
    rw [exec_lookup, glyphLookup_of_unsupported _ hunsupported]
    rfl
  · intro s ch k hk
    rw [exec_lookup, glyphLookup_of_supported _ hk]
    rfl
  · intro s w rest h
    rw [step_command, decode_of_opcode_lookup h]

end Sys2Proof.Machine

/-! SUPPORT. The frame-buffer commands: what each one's word decodes to and what executing it leaves (41_frame_buffer.md
R100, R104, R105, R110, R115). -/

namespace Sys2Proof.Machine

/-! ### The fields of a word as shifts, and the commands' words -/

theorem posField_eq_setWidth_shift (w : Word) : posField w = (w >>> 24).setWidth 4 := by
  apply BitVec.eq_of_toNat_eq
  simp [posField]

theorem patField_eq_setWidth (w : Word) : patField w = w.setWidth 7 := by
  apply BitVec.eq_of_toNat_eq
  simp [patField]

theorem comField_eq_setWidth_shift (w : Word) : comField w = (w >>> 24).setWidth 2 := by
  apply BitVec.eq_of_toNat_eq
  simp [comField]

/-- The bits above 28 are the `op` field. -/
theorem opField_of_shift {w : Word} {op : BitVec 4} (h : w >>> 28 = op.setWidth 32) : opField w = op := by
  rw [opField_eq_setWidth_shift, h]
  exact BitVec.setWidth_setWidth_of_le op (by decide)

section Words
variable {w : Word}

theorem decode_of_opcode_clear (h : w >>> 28 = 1#32) : decode w = .clear := by
  rw [decode, opField_of_shift (op := 1#4) h]
  rfl

theorem decode_of_opcode_setPattern (h : w >>> 28 = 2#32) :
    decode w = .setPattern ((w >>> 24).setWidth 4) (w.setWidth 7) := by
  rw [← posField_eq_setWidth_shift, ← patField_eq_setWidth, decode, opField_of_shift (op := 2#4) h]
  rfl

theorem decode_of_opcode_setChar (h : w >>> 28 = 3#32) :
    decode w = .setChar ((w >>> 24).setWidth 4) (w.setWidth 21) := by
  rw [← posField_eq_setWidth_shift, ← chField_eq_setWidth, decode, opField_of_shift (op := 3#4) h]
  rfl

theorem decode_of_opcode_readLine (h : w >>> 28 = 5#32) : decode w = .readLine ((w >>> 24).setWidth 2) := by
  rw [← comField_eq_setWidth_shift, decode, opField_of_shift (op := 5#4) h]
  rfl

end Words

/-! ### What the commands leave -/

/-- CLEAR zeroes the frame buffer and responds (R100). -/
theorem exec_clear (s : State) :
    exec .clear s = .next { s with fb := FrameBuffer.zero, response := some .none } := rfl

/-- SET_PATTERN at a digit position scatters the Pattern into that cell and responds (R104). -/
theorem exec_setPattern_of_digit {pos : Position} {d : DigitPos} (h : pos.toNat = d.val) (pat : Pattern) (s : State) :
    exec (.setPattern pos pat) s =
      .next { s with fb := writeCell s.geom d pat s.fb, response := some .none } := by
  rw [exec, execSetPattern, putPattern_of_digit _ _ _ d (digitPos?_of_toNat h)]
  rfl

/-- SET_CHAR runs SET_PATTERN with the looked-up Pattern (R110). -/
theorem exec_setChar (pos : Position) (ch : CharCode) (s : State) :
    exec (.setChar pos ch) s = exec (.setPattern pos (glyphLookup s.glyph ch)) s := rfl

/-- READ_LINE only responds (R115). -/
theorem exec_readLine (com : BitVec 2) (s : State) :
    exec (.readLine com) s = .next (respond (.line (s.fb.line (comIndex com))) s) := rfl

/-! ### The statements -/

/-- Settles O22: at a digit position the cell's bits by `bit_writeCell_segment`, the other bits by `bit_writeCell_other`;
at other positions by `exec_setPattern_of_gt`. -/
theorem setPatternScattersIntoItsCell : Obligations.SetPatternScattersIntoItsCell := by
  refine ⟨?_, fun s pos pat h => exec_setPattern_of_gt h pat s, ?_⟩
  · intro s pos pat d hd
    refine ⟨writeCell s.geom d pat s.fb, exec_setPattern_of_digit hd pat s, ?_, ?_⟩
    · exact fun seg => bit_writeCell_segment s.geom d pat s.fb seg
    · exact fun a hother => bit_writeCell_other s.geom d pat s.fb hother
  · intro s w rest h
    rw [step_command, decode_of_opcode_setPattern h]

/-- Settles O20, by what executing CLEAR leaves and by the words that decode to it. -/
theorem clearZeroesAllLines : Obligations.ClearZeroesAllLines := by
  refine ⟨exec_clear, ?_⟩
  intro s w rest h
  rw [step_command, decode_of_opcode_clear h]
  exact exec_clear { s with port := rest }

/-- Settles O23: SET_PATTERN by `exec_setPattern_of_gt`, and SET_CHAR is a SET_PATTERN. -/
theorem positionAboveTwoChangesNothing : Obligations.PositionAboveTwoChangesNothing := by
  intro s pos h
  refine ⟨fun pat => exec_setPattern_of_gt h pat s, fun ch => ?_⟩
  rw [exec_setChar]
  exact exec_setPattern_of_gt h (glyphLookup s.glyph ch) s

/-- Settles O26, by `exec_setChar` and the words that decode to SET_CHAR. -/
theorem setCharIsSetPatternOfLookup : Obligations.SetCharIsSetPatternOfLookup := by
  refine ⟨fun s pos ch => exec_setChar pos ch s, ?_⟩
  intro s w rest h
  rw [step_command, decode_of_opcode_setChar h]

/-- Settles O30: the response is the line that `comIndex` names, which is read off for each of the four operands. -/
theorem readLineRespondsWithTheLine : Obligations.ReadLineRespondsWithTheLine := by
  constructor
  · intro s com
    refine ⟨s.fb.line (comIndex com), exec_readLine com s, ?_, ?_, ?_, ?_, fun _ => rfl⟩
    all_goals
      rintro rfl
      rfl
  · intro s w rest h
    rw [step_command, decode_of_opcode_readLine h]

end Sys2Proof.Machine

/-! SUPPORT. NOP, the reserved opcodes and FLUSH: the words that run them and the events they send
(42_interface_control.md R130 to R135). -/

namespace Sys2Proof.Machine

/-! ### The words -/

theorem toNat_opField (w : Word) : (opField w).toNat = (w >>> 28).toNat := by
  have hlt : (w >>> 28).toNat < 2 ^ 4 := by
    rw [BitVec.toNat_ushiftRight, Nat.shiftRight_eq_div_pow]
    omega
  rw [opField_eq_setWidth_shift, BitVec.toNat_setWidth, Nat.mod_eq_of_lt hlt]

theorem decode_of_opcode_nop {w : Word} (h : w >>> 28 = 0#32) : decode w = .nop := by
  rw [decode, opField_of_shift (op := 0#4) h]
  rfl

theorem decode_of_opcode_flush {w : Word} (h : w >>> 28 = 6#32) : decode w = .flush := by
  rw [decode, opField_of_shift (op := 6#4) h]
  rfl

/-- The opcodes from 7 on are the reserved ones (R66). -/
theorem decode_of_opcode_reserved {w : Word} (h : 7 ≤ (w >>> 28).toNat) :
    decode w = .reserved7 ∨ ∃ op, decode w = .reserved8to15 op := by
  rw [← toNat_opField] at h
  unfold decode
  split
  case h_8 => exact .inl rfl
  case h_9 => exact .inr ⟨opField w, rfl⟩
  all_goals omega

/-! ### The commands that only respond -/

theorem exec_nop (s : State) : exec .nop s = .next { s with response := some .none } := rfl

theorem exec_reserved7 (s : State) : exec .reserved7 s = .next { s with response := some .none } := rfl

theorem exec_reserved8to15 (op : BitVec 4) (s : State) :
    exec (.reserved8to15 op) s = .next { s with response := some .none } := rfl

/-- Settles O38: the commands' own equations, and the decoder sends each of these words to one of them. -/
theorem nopAndReservedChangeNothing : Obligations.NopAndReservedChangeNothing := by
  refine ⟨fun s op => ⟨exec_nop s, exec_reserved7 s, exec_reserved8to15 op s⟩, ?_⟩
  intro s w rest h
  rw [step_command]
  obtain hzero | hreserved := h
  · rw [decode_of_opcode_nop hzero, exec_nop]
  · obtain h7 | ⟨op, h8to15⟩ := decode_of_opcode_reserved hreserved
    · rw [h7, exec_reserved7]
    · rw [h8to15, exec_reserved8to15]

/-! ### FLUSH and the event stream -/

/-- FLUSH appends its five events and responds (R132). -/
theorem exec_flush (s : State) :
    exec .flush s = .next { s with response := some .none, events := s.events ++ flushEvents s } := rfl

/-- Settles O39, by `exec_flush` and the words that decode to FLUSH. -/
theorem flushSendsOneSnapshot : Obligations.FlushSendsOneSnapshot := by
  refine ⟨exec_flush, ?_⟩
  intro s w rest h
  rw [step_command, decode_of_opcode_flush h]

/-- The events of FLUSH stand in the order of the lines (R132). -/
theorem flushEvents_getElem?_line (s : State) (c : ComIndex) : (flushEvents s)[c.val]? = some (lineEvent s c) := by
  fin_cases c <;> rfl

/-- A line of the stream after FLUSH, counted from the events sent before. -/
theorem append_flushEvents_getElem?_line (s : State) (c : ComIndex) :
    (s.events ++ flushEvents s)[s.events.length + c.val]? = some (lineEvent s c) := by
  rw [List.getElem?_append_right (Nat.le_add_right _ _), Nat.add_sub_cancel_left, flushEvents_getElem?_line]

/-- Zero extension to the peripheral's width keeps every bit of a line, the width being at least 6 (R133). -/
theorem getLsbD_setWidth_line (fb : FrameBuffer) (c : ComIndex) (b : BitIndex) (width : PeriphWidth) :
    ((fb.line c).setWidth width.bits).getLsbD b.val = fb.bit ⟨c, b⟩ := by
  have hb : b.val < width.bits := Nat.lt_of_lt_of_le b.isLt (Nat.le_add_right 6 width.extra)
  rw [BitVec.getLsbD_setWidth, decide_eq_true hb, Bool.true_and, FrameBuffer.bit]

/-- Settles O40: the event at a line's index carries the zero-extended line: its low bits by
`getLsbD_setWidth_line`, and a line has no bit from 6 on. -/
theorem writeLineCarriesTheLineZeroExtended : Obligations.WriteLineCarriesTheLineZeroExtended := by
  intro s
  refine ⟨_, exec_flush s, Nat.le_add_right 6 s.periphW.extra, fun c => ?_⟩
  refine ⟨(s.fb.line c).setWidth s.periphW.bits, ?_, ?_, ?_⟩
  · exact append_flushEvents_getElem?_line s c
  · exact fun b => getLsbD_setWidth_line s.fb c b s.periphW
  · intro i hi
    rw [BitVec.getLsbD_setWidth, BitVec.getLsbD_of_ge _ i hi, Bool.and_false]

/-- No command but FLUSH emits an event (R134). -/
theorem exec_events_of_ne_flush {i : Instr} {s t : State} (h : exec i s = .next t) (hflush : i ≠ .flush) :
    t.events = s.events := by
  cases i with
  | flush => exact absurd rfl hflush
  | setPattern pos pat => rw [eq_of_exec_setPattern h, respond_events, putPattern_events]
  | setChar pos ch => rw [eq_of_exec_setChar h, respond_events, putPattern_events]
  | _ => cases h; rfl

/-- Settles O41: FLUSH appends its events (`exec_flush`), every other command none (`exec_events_of_ne_flush`). -/
theorem onlyFlushEmitsEvents : Obligations.OnlyFlushEmitsEvents := by
  intro i s
  by_cases hflush : i = .flush
  · rw [hflush]
    exact ⟨_, flushEvents s, exec_flush s, rfl, fun hne => absurd rfl hne, fun _ => rfl⟩
  · obtain ⟨t, _, hexec, -⟩ := exec_response_kind i s
    have hevents : t.events = s.events ++ [] := by rw [exec_events_of_ne_flush hexec hflush, List.append_nil]
    exact ⟨t, [], hexec, hevents, fun _ => rfl, fun heq => absurd heq hflush⟩

end Sys2Proof.Machine

/-! SUPPORT. Nothing stops the block: a command always answers a next state, so a step does, so a run does
(60_exceptions.md R150, R151). -/

namespace Sys2Proof.Machine

theorem exec_answers_next (i : Instr) (s : State) : ∃ t, exec i s = .next t := by
  obtain ⟨t, _, hexec, -⟩ := exec_response_kind i s
  exact ⟨t, hexec⟩

/-- Besides a command, the block is idle or takes a reset, and neither can fail: the port decides which. -/
theorem step_answers_next (s : State) : ∃ t, step s = .next t := by
  unfold step
  split
  case h_1 => exact ⟨idle s, rfl⟩
  case h_2 w rest _ => exact exec_answers_next (decode w) { s with port := rest }
  case h_3 rest _ => exact ⟨takeReset { s with port := rest }, rfl⟩
  case h_4 w rest _ => exact ⟨takeResetDuring (decode w) { s with port := rest }, rfl⟩

/-- A machine each of whose steps answers a next state runs for any number of steps, from any state. -/
theorem run_answers_next {M : Host.Core} (hstep : ∀ s, ∃ t, M.step s = .next t) (k : Nat) :
    ∀ s, ∃ t, M.run k s = .next t := by
  induction k with
  | zero => exact fun s => ⟨s, rfl⟩
  | succ k ih =>
    intro s
    obtain ⟨s', hs'⟩ := hstep s
    rw [run_succ_of_next hs']
    exact ih s'

/-- Settles O6: no command fails (`exec_answers_next`), so no step fails whatever the port holds (`step_answers_next`), and
a run is by induction on its length (`run_answers_next`). -/
theorem nothingEverStopsTheBlock : Obligations.NothingEverStopsTheBlock :=
  ⟨exec_answers_next, fun s k => run_answers_next (M := core) step_answers_next k s⟩

end Sys2Proof.Machine

/-! SUPPORT. The encoder and the decoder are inverse on the used bits: the fields of an encoded word, and a word as its
fields with the ignored bits 0 (30_encoding.md R61 to R67). -/

namespace Sys2Proof.Machine

/-! ### The fields of an encoded word -/

/-- The lowest field of an append is its lower part. -/
theorem extractLsb'_low_append {h n : Nat} (hi : BitVec h) (lo : BitVec n) : (hi ++ lo).extractLsb' 0 n = lo := by
  rw [BitVec.extractLsb'_append_eq_of_add_le (Nat.le_of_eq (Nat.zero_add n)), BitVec.extractLsb'_eq_self]

/-- The field directly above a gap, whatever stands above the field and below the gap. -/
theorem extractLsb'_above_gap {h f g n : Nat} (hi : BitVec h) (field : BitVec f) (gap : BitVec g) (lo : BitVec n) :
    (hi ++ field ++ gap ++ lo).extractLsb' (n + g) f = field := by
  rw [BitVec.extractLsb'_append_eq_of_le (Nat.le_add_right n g), Nat.add_sub_cancel_left,
    BitVec.extractLsb'_append_eq_of_le (Nat.le_refl g), Nat.sub_self, extractLsb'_low_append]

theorem posField_encode_setPattern (pos : Position) (pat : Pattern) : posField (encode (.setPattern pos pat)) = pos :=
  extractLsb'_above_gap 0x2#4 pos 0#17 pat

theorem patField_encode_setPattern (pos : Position) (pat : Pattern) : patField (encode (.setPattern pos pat)) = pat :=
  extractLsb'_low_append (0x2#4 ++ pos ++ 0#17) pat

theorem posField_encode_setChar (pos : Position) (ch : CharCode) : posField (encode (.setChar pos ch)) = pos :=
  extractLsb'_above_gap 0x3#4 pos 0#3 ch

theorem chField_encode_setChar (pos : Position) (ch : CharCode) : chField (encode (.setChar pos ch)) = ch :=
  extractLsb'_low_append (0x3#4 ++ pos ++ 0#3) ch

theorem chField_encode_lookup (ch : CharCode) : chField (encode (.lookup ch)) = ch :=
  extractLsb'_low_append (0x4#4 ++ 0#7) ch

theorem comField_encode_readLine (com : BitVec 2) : comField (encode (.readLine com)) = com := by
  revert com
  decide

/-- The opcodes 8..15 are one row of the map (R66). -/
theorem decode_of_opField_ge {w : Word} (h : 8 ≤ (opField w).toNat) : decode w = .reserved8to15 (opField w) := by
  unfold decode
  split
  case h_9 => rfl
  all_goals omega

/-- Every command of R60 is well formed but a reserved one below 8, which belongs to another row. -/
theorem decode_encode {i : Instr} (h : i.wellFormed = true) : decode (encode i) = i := by
  have hop : opField (encode i) = i.opcode := opField_encode i
  cases i with
  | setPattern pos pat =>
    have hcommand : decode (encode (.setPattern pos pat)) =
        .setPattern (posField (encode (.setPattern pos pat))) (patField (encode (.setPattern pos pat))) := by
      rw [decode, hop]; rfl
    rw [hcommand, posField_encode_setPattern, patField_encode_setPattern]
  | setChar pos ch =>
    have hcommand : decode (encode (.setChar pos ch)) =
        .setChar (posField (encode (.setChar pos ch))) (chField (encode (.setChar pos ch))) := by
      rw [decode, hop]; rfl
    rw [hcommand, posField_encode_setChar, chField_encode_setChar]
  | lookup ch =>
    have hcommand : decode (encode (.lookup ch)) = .lookup (chField (encode (.lookup ch))) := by rw [decode, hop]; rfl
    rw [hcommand, chField_encode_lookup]
  | readLine com =>
    have hcommand : decode (encode (.readLine com)) = .readLine (comField (encode (.readLine com))) := by
      rw [decode, hop]; rfl
    rw [hcommand, comField_encode_readLine]
  | reserved8to15 op =>
    have hge : 8 ≤ op.toNat := of_decide_eq_true h
    rw [decode_of_opField_ge (by rwa [hop]), hop]
    rfl
  | _ => rw [decode, hop]; rfl

/-- Settles O11: the opcode chooses the command (`opField_encode`), and each operand field reads its operand back. -/
theorem decodeInvertsEncode : Obligations.DecodeInvertsEncode := fun _ h => decode_encode h

/-! ### A word as its fields -/

/-- Masking out a gap leaves the bits above it and the bits below it. -/
theorem and_gapMask {h g n : Nat} (w : BitVec (h + g + n)) :
    w &&& (BitVec.allOnes h ++ 0#g ++ BitVec.allOnes n) = w.extractLsb' (n + g) h ++ 0#g ++ w.extractLsb' 0 n := by
  have hword : w = w.extractLsb' (n + g) h ++ w.extractLsb' n g ++ w.extractLsb' 0 n := by
    rw [BitVec.extractLsb'_append_extractLsb'_eq_extractLsb' rfl, BitVec.extractLsb'_append_extractLsb']
  conv_lhs => rw [hword]
  rw [BitVec.and_append, BitVec.and_append, BitVec.and_allOnes, BitVec.and_allOnes, BitVec.and_zero]

/-- The top byte of a word is its `op` field and its `pos` field (R63). -/
theorem topByte_eq_opField_append_posField (w : Word) : w.extractLsb' 24 8 = opField w ++ posField w :=
  (BitVec.extractLsb'_append_extractLsb'_eq_extractLsb' (x := w) (start₂ := 28) (start₁ := 24) (len₁ := 4) (len₂ := 4)
    rfl).symm

/-- READ_LINE uses the `op` field and the low two bits of the `pos` field (R62). -/
theorem and_readLineMask (w : Word) : w &&& 0xF3000000#32 = opField w ++ 0#2 ++ comField w ++ 0#24 := by
  have hword : w = w.extractLsb' 24 8 ++ w.extractLsb' 0 24 :=
    (BitVec.extractLsb'_append_extractLsb' (w := 8) (len := 24)).symm
  have hop : (w.extractLsb' 24 8).extractLsb' 4 4 = opField w := by
    rw [topByte_eq_opField_append_posField, BitVec.extractLsb'_append_eq_left]
  have hcom : (w.extractLsb' 24 8).extractLsb' 0 2 = comField w := by
    apply BitVec.eq_of_getLsbD_eq
    intro i hi
    simp [comField, Nat.lt_of_lt_of_le hi]
  have hbyte : w.extractLsb' 24 8 &&& (BitVec.allOnes 4 ++ 0#2 ++ BitVec.allOnes 2) = opField w ++ 0#2 ++ comField w := by
    rw [and_gapMask (h := 4) (g := 2) (n := 2), hop, hcom]
  have hmask : 0xF3000000#32 = BitVec.allOnes 4 ++ 0#2 ++ BitVec.allOnes 2 ++ 0#24 := by decide
  calc w &&& 0xF3000000#32
    _ = (w.extractLsb' 24 8 ++ w.extractLsb' 0 24) &&& (BitVec.allOnes 4 ++ 0#2 ++ BitVec.allOnes 2 ++ 0#24) := by
      rw [← hword, hmask]
    _ = opField w ++ 0#2 ++ comField w ++ 0#24 := by rw [BitVec.and_append, hbyte, BitVec.and_zero]

/-- The last branch of the decoder is the opcodes 8..15. -/
theorem eight_le_of_ne {n : Nat} (h0 : n ≠ 0) (h1 : n ≠ 1) (h2 : n ≠ 2) (h3 : n ≠ 3) (h4 : n ≠ 4) (h5 : n ≠ 5)
    (h6 : n ≠ 6) (h7 : n ≠ 7) : 8 ≤ n := by
  omega

/-- The commands without operands use the `op` field alone (R62). -/
theorem formatMask_of_no_operands {w : Word} (h : (opField w).toNat < 2 ∨ 5 < (opField w).toNat) :
    formatMask w = 0xF0000000#32 := by
  unfold formatMask
  split
  case h_5 => rfl
  all_goals omega

theorem and_formatMask_of_no_operands {w : Word} (h : (opField w).toNat < 2 ∨ 5 < (opField w).toNat) :
    w &&& formatMask w = opField w ++ 0#28 := by
  rw [formatMask_of_no_operands h, and_opMask]

theorem and_formatMask_of_setPattern {w : Word} (h : opField w = 2#4) :
    w &&& formatMask w = 2#4 ++ posField w ++ 0#17 ++ patField w := by
  have hmask : formatMask w = BitVec.allOnes 8 ++ 0#17 ++ BitVec.allOnes 7 := by rw [formatMask, h]; rfl
  have htop : w.extractLsb' (7 + 17) 8 = 2#4 ++ posField w := by rw [← h]; exact topByte_eq_opField_append_posField w
  rw [hmask, patField, ← htop]
  exact and_gapMask (h := 8) (g := 17) (n := 7) w

theorem and_formatMask_of_setChar {w : Word} (h : opField w = 3#4) :
    w &&& formatMask w = 3#4 ++ posField w ++ 0#3 ++ chField w := by
  have hmask : formatMask w = BitVec.allOnes 8 ++ 0#3 ++ BitVec.allOnes 21 := by rw [formatMask, h]; rfl
  have htop : w.extractLsb' (21 + 3) 8 = 3#4 ++ posField w := by rw [← h]; exact topByte_eq_opField_append_posField w
  rw [hmask, chField, ← htop]
  exact and_gapMask (h := 8) (g := 3) (n := 21) w

theorem and_formatMask_of_lookup {w : Word} (h : opField w = 4#4) : w &&& formatMask w = 4#4 ++ 0#7 ++ chField w := by
  have hmask : formatMask w = BitVec.allOnes 4 ++ 0#7 ++ BitVec.allOnes 21 := by rw [formatMask, h]; rfl
  rw [hmask, chField, ← h]
  exact and_gapMask (h := 4) (g := 7) (n := 21) w

theorem and_formatMask_of_readLine {w : Word} (h : opField w = 5#4) :
    w &&& formatMask w = 5#4 ++ 0#2 ++ comField w ++ 0#24 := by
  have hmask : formatMask w = 0xF3000000#32 := by rw [formatMask, h]; rfl
  rw [hmask, and_readLineMask, h]

/-- Encoding a decoded word keeps the used bits and writes the ignored ones as 0 (R66), format by format. -/
theorem encode_decode (w : Word) : encode (decode w) = w &&& formatMask w := by
  unfold decode
  split
  next e => rw [and_formatMask_of_no_operands (by omega), BitVec.eq_of_toNat_eq (y := 0#4) e]; rfl
  next e => rw [and_formatMask_of_no_operands (by omega), BitVec.eq_of_toNat_eq (y := 1#4) e]; rfl
  next e => rw [and_formatMask_of_setPattern (BitVec.eq_of_toNat_eq (y := 2#4) e)]; rfl
  next e => rw [and_formatMask_of_setChar (BitVec.eq_of_toNat_eq (y := 3#4) e)]; rfl
  next e => rw [and_formatMask_of_lookup (BitVec.eq_of_toNat_eq (y := 4#4) e)]; rfl
  next e => rw [and_formatMask_of_readLine (BitVec.eq_of_toNat_eq (y := 5#4) e)]; rfl
  next e => rw [and_formatMask_of_no_operands (by omega), BitVec.eq_of_toNat_eq (y := 6#4) e]; rfl
  next e => rw [and_formatMask_of_no_operands (by omega), BitVec.eq_of_toNat_eq (y := 7#4) e]; rfl
  next =>
    have hge : 8 ≤ (opField w).toNat := by apply eight_le_of_ne <;> assumption
    rw [and_formatMask_of_no_operands (by omega)]; rfl

theorem wellFormed_decode (w : Word) : (decode w).wellFormed = true := by
  unfold decode
  split
  case h_9 =>
    have hge : 8 ≤ (opField w).toNat := by apply eight_le_of_ne <;> assumption
    exact decide_eq_true hge
  all_goals rfl

/-- Settles O12, by the formats (`encode_decode`) and the rows (`wellFormed_decode`). -/
theorem encodeOfDecodeKeepsEveryUsedBit : Obligations.EncodeOfDecodeKeepsEveryUsedBit :=
  fun w => ⟨encode_decode w, wellFormed_decode w⟩

/-! ### The commands' words -/

theorem decode_of_opcode_seven {w : Word} (h : w >>> 28 = 7#32) : decode w = .reserved7 := by
  rw [decode, opField_of_shift (op := 7#4) h]
  rfl

theorem decode_of_opcode_ge_eight {w : Word} (h : 8 ≤ (w >>> 28).toNat) :
    decode w = .reserved8to15 ((w >>> 28).setWidth 4) := by
  rw [← opField_eq_setWidth_shift]
  exact decode_of_opField_ge (by rwa [toNat_opField])

/-- Settles O8: one lemma per opcode says what its words decode to. -/
theorem opcodeFieldSelectsCommand : Obligations.OpcodeFieldSelectsCommand := fun _ =>
  ⟨decode_of_opcode_nop, decode_of_opcode_clear, decode_of_opcode_setPattern, decode_of_opcode_setChar,
    decode_of_opcode_lookup, decode_of_opcode_readLine, decode_of_opcode_flush, decode_of_opcode_seven,
    decode_of_opcode_ge_eight⟩

/-- Settles O7: the decoder evaluated on the eleven words of the spec. -/
theorem decoderReadsTestWords : Obligations.DecoderReadsTestWords := by
  unfold Obligations.DecoderReadsTestWords
  decide

end Sys2Proof.Machine

/-! SUPPORT. The address map (20_memory.md R42 to R46, R56): distinct pairs have distinct addresses, each bit one owner. -/

namespace Sys2Proof.Machine

/-- Settles O16, by `addr_inj`: an address is one slot's bit at one position. -/
theorem addressesAreInjective : Obligations.AddressesAreInjective := fun geom _ _ _ _ h => addr_inj geom h

/-- A segment's address belongs to the position it is taken at, and to no other (R46). -/
theorem owns_addr_iff (geom : Geometry) (d' : DigitPos) (s : Segment) (d : DigitPos) :
    owns d' (addr geom s d) = true ↔ d' = d :=
  owns_slotBit d' (slotOf geom s) d

/-- Settles O17: every bit is a slot's bit at one position, which is its only owner. -/
theorem ownSetsPartitionTheBits : Obligations.OwnSetsPartitionTheBits := by
  refine ⟨?_, fun geom s d => (owns_addr_iff geom d s d).2 rfl⟩
  intro a
  obtain ⟨u, d, rfl⟩ := exists_eq_slotBit a
  exact ⟨d, (owns_slotBit d u d).2 rfl, fun d' h => (owns_slotBit d' u d).1 h⟩

/-- Settles O14: the seven slots are a closed fact, and they leave out (3, 1) alone (`example_unused`). -/
theorem exampleGeometryLeavesSlotThreeOneUnused : Obligations.ExampleGeometryLeavesSlotThreeOneUnused := by
  refine ⟨by decide, fun u => ⟨example_unused u, ?_⟩⟩
  rintro rfl
  exact witness_UnusedSlot

end Sys2Proof.Machine

/-! SUPPORT. A step by the input it takes: a command word, a reset, a reset during a command, or nothing (10_state.md R32,
20_memory.md R52, 60_exceptions.md R156, 70_reset_and_hazards.md R170). -/

namespace Sys2Proof.Machine

theorem step_idle {s : State} (h : s.port = []) : step s = .next (idle s) := by
  rw [step, h]

theorem step_reset (s : State) (rest : List HostInput) :
    step { s with port := .reset :: rest } = .next (takeReset { s with port := rest }) := rfl

theorem step_resetDuring (s : State) (w : Word) (rest : List HostInput) :
    step { s with port := .resetDuring w :: rest } = .next (takeResetDuring (decode w) { s with port := rest }) := rfl

@[simp] theorem line_zero (c : ComIndex) : FrameBuffer.zero.line c = 0#6 := by
  fin_cases c <;> rfl

section TakeResetDuring
variable (i : Instr) (s : State)
@[simp] theorem takeResetDuring_fb : (takeResetDuring i s).fb = FrameBuffer.zero := rfl
@[simp] theorem takeResetDuring_response : (takeResetDuring i s).response = none := rfl
@[simp] theorem takeResetDuring_geom : (takeResetDuring i s).geom = s.geom := emitAbandoned_geom i s
@[simp] theorem takeResetDuring_glyph : (takeResetDuring i s).glyph = s.glyph := emitAbandoned_glyph i s
@[simp] theorem takeResetDuring_periphW : (takeResetDuring i s).periphW = s.periphW := emitAbandoned_periphW i s
@[simp] theorem takeResetDuring_port : (takeResetDuring i s).port = s.port := emitAbandoned_port i s
/-- The reset itself emits nothing: what it leaves is what the abandoned command had sent (R156). -/
@[simp] theorem takeResetDuring_events : (takeResetDuring i s).events = (emitAbandoned i s).events := rfl
end TakeResetDuring

/-- A step that takes no command leaves no response (R25, log entries 2 and 16). -/
theorem step_response_of_no_command {s t : State} (hport : ∀ w rest, s.port ≠ .command w :: rest)
    (h : step s = .next t) : t.response = none := by
  obtain ⟨-, rfl⟩ | ⟨w, rest, hcommand, -⟩ | ⟨rest, -, rfl⟩ | ⟨w, rest, -, rfl⟩ := step_cases s t h
  · exact idle_response s
  · exact absurd hcommand (hport w rest)
  · exact takeReset_response _
  · exact takeResetDuring_response _ _

/-- Settles O1: the reset state's fields, a reset's fields, and `step_response_of_no_command`. -/
theorem resetStateHoldsSpecValues : Obligations.ResetStateHoldsSpecValues := by
  refine ⟨fun geom glyph w => ⟨line_zero, rfl, rfl, rfl, rfl⟩, rfl, ?_, fun s t => step_response_of_no_command⟩
  intro s rest
  exact ⟨_, step_reset s rest, line_zero, rfl, rfl, rfl⟩

/-- Settles O2: the three steps and commands that zero the frame buffer leave `FrameBuffer.zero`. -/
theorem resetInputZeroesFrameBuffer : Obligations.ResetInputZeroesFrameBuffer :=
  ⟨step_reset, fun s w rest => ⟨_, step_resetDuring s w rest, rfl, rfl⟩, fun s => ⟨_, exec_clear s, rfl⟩⟩

/-- Settles O3: the reset zeroes the lines, and the events are those of `emitAbandoned_events`. -/
theorem resetAbandonsCommandInProgress : Obligations.ResetAbandonsCommandInProgress := by
  intro s w rest
  obtain ⟨n, hn, hevents⟩ := emitAbandoned_events (decode w) { s with port := rest }
  exact ⟨_, n, step_resetDuring s w rest, hn, line_zero, rfl, takeResetDuring_port _ _, takeResetDuring_geom _ _,
    takeResetDuring_glyph _ _, takeResetDuring_periphW _ _, hevents⟩

/-- A word placed on the port is the 32-bit word itself. -/
theorem tableWord_word (w : Nat) : tableWord 32 w = BitVec.ofNat 32 w := by
  apply BitVec.eq_of_toNat_eq
  simp [tableWord]

/-- Settles O4, by the step of a command word (`step_command`) and the idle step. -/
theorem stepRunsTheDecodedCommand : Obligations.StepRunsTheDecodedCommand := by
  refine ⟨?_, ?_, fun s h => step_idle h⟩
  · rintro s w i rest rfl -
    exact step_command s w rest
  · intro s w
    rw [State.withFetchWord, tableWord_word]
    exact step_command s (BitVec.ofNat 32 w) s.port

end Sys2Proof.Machine

/-! SUPPORT. What a command answers depends on the frame buffer and the tables alone (10_state.md R29), and a cleared
buffer is flushed as zeros (41_frame_buffer.md R101). -/

namespace Sys2Proof.Machine

/-- The events of a command: FLUSH's five, or none (R134). -/
theorem exec_events {i : Instr} {s t : State} (h : exec i s = .next t) :
    t.events = s.events ++ if i = .flush then flushEvents s else [] := by
  by_cases hflush : i = .flush
  · subst hflush
    rw [if_pos rfl, ← Host.Outcome.next.inj h]
    rfl
  · rw [if_neg hflush, List.append_nil, exec_events_of_ne_flush h hflush]

theorem flushEvents_congr {s s' : State} (hfb : s.fb = s'.fb) (hwidth : s.periphW = s'.periphW) :
    flushEvents s = flushEvents s' := by
  obtain ⟨fb, _, _, width, _, _, _, _⟩ := s
  obtain ⟨fb', _, _, width', _, _, _, _⟩ := s'
  obtain rfl : fb = fb' := hfb
  obtain rfl : width = width' := hwidth
  rfl

theorem frameBuffer_ext_line {fb fb' : FrameBuffer} (h : ∀ c, fb.line c = fb'.line c) : fb = fb' :=
  frameBuffer_ext fun a => by rw [FrameBuffer.bit, FrameBuffer.bit, h]

/-- A response reads the frame buffer (READ_LINE) or the glyph ROM (LOOKUP). -/
theorem exec_response_congr {i : Instr} {s s' t t' : State} (hfb : s.fb = s'.fb) (hglyph : s.glyph = s'.glyph)
    (h : exec i s = .next t) (h' : exec i s' = .next t') : t.response = t'.response := by
  cases i with
  | lookup ch =>
    rw [exec_lookup, Host.Outcome.next.injEq] at h h'
    rw [← h, ← h', hglyph]
    rfl
  | readLine com =>
    rw [exec_readLine, Host.Outcome.next.injEq] at h h'
    rw [← h, ← h', hfb]
    rfl
  | _ => cases h; cases h'; rfl

/-- Settles O44: frame buffer line by line (`line_exec_congr`), response and events by what they read. -/
theorem noHiddenStateBetweenCommands : Obligations.NoHiddenStateBetweenCommands := by
  intro i s s' hfb hgeom hglyph hwidth
  obtain ⟨t, h⟩ := exec_answers_next i s
  obtain ⟨t', h'⟩ := exec_answers_next i s'
  refine ⟨t, t', if i = .flush then flushEvents s else [], h, h', ?_, exec_response_congr hfb hglyph h h',
    exec_events h, ?_⟩
  · exact frameBuffer_ext_line fun c => line_exec_congr hgeom hglyph (by rw [hfb]) h h'
  · rw [exec_events h', flushEvents_congr hfb hwidth]

/-- Commands run after others: the second list goes on where the first ends. -/
theorem execAll_append_of_next {is : List Instr} {s t : State} (h : execAll is s = .next t) (js : List Instr) :
    execAll (is ++ js) s = execAll js t := by
  induction is generalizing s with
  | nil => rw [List.nil_append, Host.Outcome.next.inj h]
  | cons i is ih =>
    obtain ⟨s', hs'⟩ := exec_answers_next i s
    rw [execAll_cons_of_next hs'] at h
    rw [List.cons_append, execAll_cons_of_next hs', ih h]

/-- Without a cell write a zero frame buffer stays zero (R101): CLEAR makes it zero again, the others keep it. -/
theorem exec_keeps_zero {i : Instr} {s t : State} (h : exec i s = .next t) (hcell : NoCellWrite i)
    (hzero : s.fb = FrameBuffer.zero) : t.fb = FrameBuffer.zero := by
  by_cases hclear : i = .clear
  · subst hclear
    rw [eq_of_exec_clear h, respond_fb, clearLines_fb]
  · rw [exec_fb_of_noWrite h hclear hcell, hzero]

theorem execAll_keeps_zero {is : List Instr} {s : State} (hcell : ∀ i ∈ is, NoCellWrite i)
    (hzero : s.fb = FrameBuffer.zero) :
    ∃ t, execAll is s = .next t ∧ t.fb = FrameBuffer.zero ∧ t.periphW = s.periphW := by
  induction is generalizing s with
  | nil => exact ⟨s, rfl, hzero, rfl⟩
  | cons i is ih =>
    obtain ⟨hi, his⟩ := List.forall_mem_cons.1 hcell
    obtain ⟨s', hs'⟩ := exec_answers_next i s
    obtain ⟨-, -, hwidth, -, -⟩ := exec_frame i s s' hs'
    obtain ⟨t, ht, hfb, hwidth'⟩ := ih his (exec_keeps_zero hs' hi hzero)
    exact ⟨t, by rw [execAll_cons_of_next hs', ht], hfb, by rw [hwidth', hwidth]⟩

theorem flushEvents_of_zero {s : State} (hzero : s.fb = FrameBuffer.zero) :
    flushEvents s = [.writeLine 0 s.periphW.bits 0, .writeLine 1 s.periphW.bits 0, .writeLine 2 s.periphW.bits 0,
      .writeLine 3 s.periphW.bits 0, .submitFrame] := by
  simp only [flushEvents, lineEvent, hzero, line_zero, BitVec.setWidth_zero, BitVec.ofNat_eq_ofNat]

/-- Settles O21: the commands between CLEAR and FLUSH keep the zero buffer (`execAll_keeps_zero`). -/
theorem clearThenFlushSendsZeroLines : Obligations.ClearThenFlushSendsZeroLines := by
  intro s is hcell
  obtain ⟨t, ht, hzero, hwidth⟩ :=
    execAll_keeps_zero (s := { s with fb := FrameBuffer.zero, response := some .none }) hcell rfl
  have hevents : flushEvents t = [.writeLine 0 s.periphW.bits 0, .writeLine 1 s.periphW.bits 0,
      .writeLine 2 s.periphW.bits 0, .writeLine 3 s.periphW.bits 0, .submitFrame] := by
    rw [flushEvents_of_zero hzero, hwidth]
  refine ⟨{ t with response := some .none, events := t.events ++ flushEvents t }, t.events, ?_, by rw [hevents]⟩
  rw [execAll_cons_of_next (exec_clear s), execAll_append_of_next ht, execAll_cons_of_next (exec_flush t)]
  rfl

end Sys2Proof.Machine

/-! SUPPORT. The machine invariant: the unused slot and the event stream, over commands, steps and runs (20_memory.md R45,
42_interface_control.md R132 to R134). -/

namespace Sys2Proof.Machine

/-! ### The unused slot in the frame buffer -/

theorem unusedBitsZero_zero (geom : Geometry) : UnusedBitsZero geom FrameBuffer.zero := fun _ _ _ => bit_zero _

/-- No write of a Pattern touches the unused slot (R45). -/
theorem bit_writeCell_unused {geom : Geometry} {u : Slot} (hu : Unused geom u) (d' d : DigitPos) (pat : Pattern)
    (fb : FrameBuffer) : (writeCell geom d' pat fb).bit (slotBit u d) = fb.bit (slotBit u d) :=
  bit_writeCell_other geom d' pat fb fun s => (unused_iff_slotBit_ne_addr geom u d).1 hu s d'

theorem unusedBitsZero_writeCell {geom : Geometry} {fb : FrameBuffer} (h : UnusedBitsZero geom fb) (d : DigitPos)
    (pat : Pattern) : UnusedBitsZero geom (writeCell geom d pat fb) := by
  intro u hu d'
  exact (bit_writeCell_unused hu d d' pat fb).trans (h u hu d')

theorem bit_putPattern_unused {s : State} {u : Slot} (hu : Unused s.geom u) (pos : Position) (pat : Pattern)
    (d : DigitPos) : (putPattern pos pat s).fb.bit (slotBit u d) = s.fb.bit (slotBit u d) := by
  cases hpos : digitPos? pos with
  | none => rw [putPattern_of_none _ _ _ hpos]
  | some d' =>
    rw [putPattern_of_digit _ _ _ d' hpos]
    exact bit_writeCell_unused hu d' d pat s.fb

/-- A command leaves the unused slot's bits as they are, but CLEAR, which makes them 0 (R45). -/
theorem bit_exec_unused {i : Instr} {s t : State} {u : Slot} (h : exec i s = .next t) (hu : Unused s.geom u)
    (d : DigitPos) : t.fb.bit (slotBit u d) = if i = .clear then false else s.fb.bit (slotBit u d) := by
  obtain rfl | ⟨pos, pat, rfl⟩ | ⟨pos, ch, rfl⟩ | ⟨hclear, hcell⟩ := frameBuffer_writer_cases i
  · rw [eq_of_exec_clear h, respond_fb, clearLines_fb, bit_zero, if_pos rfl]
  · rw [eq_of_exec_setPattern h, respond_fb, bit_putPattern_unused hu, if_neg Instr.noConfusion]
  · rw [eq_of_exec_setChar h, respond_fb, bit_putPattern_unused hu, if_neg Instr.noConfusion]
  · rw [exec_fb_of_noWrite h hclear hcell, if_neg hclear]

theorem unusedBitsZero_exec {i : Instr} {s t : State} (h : exec i s = .next t) (hs : UnusedBitsZero s.geom s.fb) :
    UnusedBitsZero s.geom t.fb := by
  intro u hu d
  have hbit := bit_exec_unused h hu d
  split at hbit
  · exact hbit
  · exact hbit.trans (hs u hu d)

/-! ### Whole frames on the wire -/

section Stream
variable {width : Nat} {es es' : List PeriphEvent}

theorem framesWhole_nil : FramesWhole width [] := fun _ _ h => absurd h (by simp)

/-- One more event keeps the frames whole unless it is a commit without its frame. -/
theorem framesWhole_concat {e : PeriphEvent} (h : FramesWhole width es)
    (hcommit : e = .submitFrame → ∃ earlier b0 b1 b2 b3, es = earlier ++
      [.writeLine 0 width b0, .writeLine 1 width b1, .writeLine 2 width b2, .writeLine 3 width b3]) :
    FramesWhole width (es ++ [e]) := by
  intro before after hsplit
  rcases List.eq_nil_or_concat after with rfl | ⟨after', last, rfl⟩
  · obtain ⟨rfl, hlast⟩ := List.append_inj' hsplit rfl
    exact hcommit (List.singleton_inj.1 hlast)
  · rw [List.concat_eq_append, ← List.cons_append, ← List.append_assoc] at hsplit
    exact h before after' (List.append_inj' hsplit rfl).1

/-- A stream cut short commits nothing more. -/
theorem framesWhole_of_append (h : FramesWhole width (es ++ es')) : FramesWhole width es := by
  intro before after hsplit
  apply h before (after ++ es')
  rw [hsplit, List.append_assoc, List.cons_append]

theorem framesWhole_append_flushEvents {s : State} (h : FramesWhole s.periphW.bits es) :
    FramesWhole s.periphW.bits (es ++ flushEvents s) := by
  have hlines : FramesWhole s.periphW.bits
      (es ++ [lineEvent s 0] ++ [lineEvent s 1] ++ [lineEvent s 2] ++ [lineEvent s 3]) := by
    refine framesWhole_concat (framesWhole_concat (framesWhole_concat (framesWhole_concat h ?_) ?_) ?_) ?_ <;>
      exact fun hne => PeriphEvent.noConfusion hne
  have hframe := framesWhole_concat (e := .submitFrame) hlines
    fun _ => ⟨es, _, _, _, _, by simp only [List.append_assoc]; rfl⟩
  simpa only [flushEvents, List.append_assoc, List.cons_append, List.nil_append] using hframe

theorem linesClean_nil (geom : Geometry) : LinesClean geom width [] := fun _ _ _ h => absurd h List.not_mem_nil

theorem linesClean_append {geom : Geometry} (h : LinesClean geom width es) (h' : LinesClean geom width es') :
    LinesClean geom width (es ++ es') := fun c w bits hmem =>
  (List.mem_append.1 hmem).elim (h c w bits) (h' c w bits)

theorem linesClean_of_append {geom : Geometry} (h : LinesClean geom width (es ++ es')) : LinesClean geom width es :=
  fun c w bits hmem => h c w bits (List.mem_append_left es' hmem)

end Stream

theorem eq_lineEvent_of_mem_flushEvents {s : State} {e : PeriphEvent} (h : e ∈ flushEvents s) :
    (∃ c, e = lineEvent s c) ∨ e = .submitFrame := by
  simp only [flushEvents, List.mem_cons, List.not_mem_nil, or_false] at h
  obtain h | h | h | h | h := h
  · exact .inl ⟨0, h⟩
  · exact .inl ⟨1, h⟩
  · exact .inl ⟨2, h⟩
  · exact .inl ⟨3, h⟩
  · exact .inr h

/-- The lines a FLUSH sends are as clean as the frame buffer (R133, I8). -/
theorem linesClean_flushEvents {s : State} (h : UnusedBitsZero s.geom s.fb) :
    LinesClean s.geom s.periphW.bits (flushEvents s) := by
  intro c w bits hmem
  obtain ⟨c', hline⟩ | hcommit := eq_lineEvent_of_mem_flushEvents hmem
  · cases hline
    refine ⟨rfl, ?_, ?_⟩
    · intro i hi
      rw [BitVec.getLsbD_setWidth, BitVec.getLsbD_of_ge _ i hi, Bool.and_false]
    · rintro u hu rfl d
      rw [getLsbD_setWidth_line]
      exact h u hu d
  · cases hcommit

/-! ### The invariant -/

/-- Settles O45: reset leaves zero lines and an empty event stream. -/
theorem resetSatisfiesInvariant : Obligations.ResetSatisfiesInvariant := by
  have hinv : ∀ (geom : Geometry) (glyph : GlyphRom) (w : PeriphWidth), Inv (State.resetWith geom glyph w) :=
    fun geom _ _ => ⟨unusedBitsZero_zero geom, framesWhole_nil, linesClean_nil geom⟩
  exact ⟨hinv, hinv Config.geom Config.glyph Config.periphW⟩

section Invariant
variable {s t : State}

/-- The invariant speaks of the frame buffer, the wiring, the width and the events only. -/
theorem inv_congr (h : Inv s) (hfb : t.fb = s.fb) (hgeom : t.geom = s.geom) (hwidth : t.periphW = s.periphW)
    (hevents : t.events = s.events) : Inv t where
  unused := by rw [hfb, hgeom]; exact h.unused
  frames := by rw [hwidth, hevents]; exact h.frames
  lines := by rw [hgeom, hwidth, hevents]; exact h.lines

/-- After the five events of a FLUSH the stream is still clean and commits whole frames. -/
theorem inv_emit_flushEvents (h : Inv s) : Inv (emit (flushEvents s) s) where
  unused := h.unused
  frames := framesWhole_append_flushEvents h.frames
  lines := linesClean_append h.lines (linesClean_flushEvents h.unused)

/-- A stream that stops short of what an invariant state has sent keeps the invariant, over a zero frame buffer. -/
theorem inv_of_events_prefix {es : List PeriphEvent} (h : Inv s) (hfb : t.fb = FrameBuffer.zero)
    (hgeom : t.geom = s.geom) (hwidth : t.periphW = s.periphW) (hevents : s.events = t.events ++ es) : Inv t where
  unused := by rw [hfb]; exact unusedBitsZero_zero t.geom
  frames := by
    have hframes := h.frames
    rw [hevents, ← hwidth] at hframes
    exact framesWhole_of_append hframes
  lines := by
    have hlines := h.lines
    rw [hevents, ← hgeom, ← hwidth] at hlines
    exact linesClean_of_append hlines

theorem inv_exec {i : Instr} (h : Inv s) (hexec : exec i s = .next t) : Inv t := by
  by_cases hflush : i = .flush
  · subst hflush
    rw [exec_flush, Host.Outcome.next.injEq] at hexec
    subst hexec
    exact inv_congr (inv_emit_flushEvents h) rfl rfl rfl rfl
  · obtain ⟨hgeom, -, hwidth, -, -⟩ := exec_frame i s t hexec
    have hevents := exec_events_of_ne_flush hexec hflush
    refine ⟨?_, ?_, ?_⟩
    · rw [hgeom]
      exact unusedBitsZero_exec hexec h.unused
    · rw [hwidth, hevents]
      exact h.frames
    · rw [hgeom, hwidth, hevents]
      exact h.lines

/-- What an abandoned command had emitted is the start of what a FLUSH emits, so it commits no partial frame. -/
theorem inv_takeResetDuring (i : Instr) (h : Inv s) : Inv (takeResetDuring i s) := by
  obtain ⟨n, -, hevents⟩ := emitAbandoned_events i s
  have hprefix : ∃ es, s.events ++ flushEvents s = (takeResetDuring i s).events ++ es := by
    rw [takeResetDuring_events, hevents]
    split
    · exact ⟨(flushEvents s).drop n, by rw [List.append_assoc, List.take_append_drop]⟩
    · exact ⟨flushEvents s, by rw [List.append_nil]⟩
  obtain ⟨es, hes⟩ := hprefix
  exact inv_of_events_prefix (inv_emit_flushEvents h) (takeResetDuring_fb i s) (takeResetDuring_geom i s)
    (takeResetDuring_periphW i s) hes

theorem inv_step (h : Inv s) (hstep : step s = .next t) : Inv t := by
  have hport : ∀ rest, Inv { s with port := rest } := fun _ => inv_congr h rfl rfl rfl rfl
  obtain ⟨-, rfl⟩ | ⟨w, rest, -, hexec⟩ | ⟨rest, -, rfl⟩ | ⟨w, rest, -, rfl⟩ := step_cases s t hstep
  · exact inv_congr h rfl rfl rfl rfl
  · exact inv_exec (hport rest) hexec
  · exact inv_of_events_prefix (es := []) (hport rest) rfl rfl rfl (List.append_nil _).symm
  · exact inv_takeResetDuring (decode w) (hport rest)

end Invariant

/-- Settles O46, by the kinds of input a step takes (`inv_step`). -/
theorem everyStepKeepsInvariant : Obligations.EveryStepKeepsInvariant := fun _ _ => inv_step

/-! ### Runs -/

/-- What holds at the start, of the port apart, and is kept by every step, holds of every reachable state. -/
theorem reachable_induction {P : State → Prop} {start s : State} (hreach : Reachable start s) (hstart : P start)
    (hport : ∀ s ins, P s → P { s with port := s.port ++ ins })
    (hstep : ∀ s t, P s → step s = .next t → P t) : P s := by
  induction hreach with
  | start => exact hstart
  | present ins _ ih => exact hport _ ins ih
  | step _ next ih => exact hstep _ _ ih next

/-- The invariant holds at every point of every run from reset, over the wiring the block was built with. -/
theorem inv_and_geom_of_reachable {geom : Geometry} {glyph : GlyphRom} {w : PeriphWidth} {s : State}
    (h : Reachable (State.resetWith geom glyph w) s) : Inv s ∧ s.geom = geom := by
  refine reachable_induction (P := fun s => Inv s ∧ s.geom = geom) h ?_ ?_ ?_
  · exact ⟨resetSatisfiesInvariant.1 geom glyph w, rfl⟩
  · exact fun s ins hs => ⟨inv_congr hs.1 rfl rfl rfl rfl, hs.2⟩
  · exact fun s t hs hstep => ⟨inv_step hs.1 hstep, (noStepWritesATable s t hstep).1.trans hs.2⟩

theorem unusedBitsZero_of_reachable {geom : Geometry} {glyph : GlyphRom} {w : PeriphWidth} {s : State}
    (h : Reachable (State.resetWith geom glyph w) s) : UnusedBitsZero geom s.fb := by
  obtain ⟨hinv, rfl⟩ := inv_and_geom_of_reachable h
  exact hinv.unused

/-- Settles O19: one slot is left over (`existsUnique_unused`), only CLEAR writes it (`bit_exec_unused`), and its three
bits, at positions 2, 1 and 0, are 0 in every reachable state. -/
theorem unusedSlotAlwaysReadsZero : Obligations.UnusedSlotAlwaysReadsZero := by
  refine ⟨existsUnique_unused, fun i s t u d hexec hu => bit_exec_unused hexec hu d, ?_⟩
  intro geom glyph w s hreach u hu
  have hbit : ∀ d : DigitPos, (s.fb.line u.com).getLsbD ((2 - d.val) * 2 + u.pin.val) = false :=
    unusedBitsZero_of_reachable hreach u hu
  refine ⟨?_, ?_, ?_⟩
  · simpa using hbit 2
  · simpa [Nat.add_comm] using hbit 1
  · simpa [Nat.add_comm] using hbit 0

end Sys2Proof.Machine

/-! SUPPORT. Cells: what a write leaves in each cell, how two writes compose, and the buffers that cells determine
(41_frame_buffer.md R104 to R112, R116). -/

namespace Sys2Proof.Machine

/-! ### One write and the cells -/

/-- SET_PATTERN changes nothing but bits that are a segment's address in its cell (R106). -/
theorem exists_addr_of_bit_writeCell_ne {geom : Geometry} {d : DigitPos} {pat : Pattern} {fb : FrameBuffer} {a : BitAddr}
    (h : (writeCell geom d pat fb).bit a ≠ fb.bit a) : ∃ s, addr geom s d = a := by
  by_contra hnone
  exact h (bit_writeCell_other geom d pat fb (not_exists.1 hnone))

theorem bit_writeCell_of_owns_other (geom : Geometry) {d d' : DigitPos} (pat : Pattern) (fb : FrameBuffer) {a : BitAddr}
    (hd : d' ≠ d) (ha : owns d' a = true) : (writeCell geom d pat fb).bit a = fb.bit a := by
  apply bit_writeCell_other
  rintro s rfl
  exact hd ((owns_addr_iff geom d' s d).1 ha)

/-- Settles O24: the seven addresses by `bit_writeCell_other`, the other owners by `bit_writeCell_of_owns_other`, the unused
slot by `bit_writeCell_unused`. -/
theorem partialUpdateLeavesOtherCellsAlone : Obligations.PartialUpdateLeavesOtherCellsAlone := by
  intro s pos pat d hpos
  refine ⟨_, exec_setPattern_of_digit hpos pat s, fun seg => (owns_addr_iff s.geom d seg d).2 rfl, ?_, ?_, ?_⟩
  · exact fun a h => exists_addr_of_bit_writeCell_ne h
  · exact fun d' a hd ha => bit_writeCell_of_owns_other s.geom pat s.fb hd ha
  · exact fun u hu => bit_writeCell_unused hu d d pat s.fb

/-- A cell reads back the Pattern written there (R107). -/
@[simp] theorem cell_writeCell_same (geom : Geometry) (d : DigitPos) (pat : Pattern) (fb : FrameBuffer) :
    cell geom (writeCell geom d pat fb) d = pat :=
  pattern_ext fun s => by rw [segmentOn_cell, bit_writeCell_segment]

@[simp] theorem cell_writeCell_ne (geom : Geometry) {d d' : DigitPos} (pat : Pattern) (fb : FrameBuffer) (h : d' ≠ d) :
    cell geom (writeCell geom d pat fb) d' = cell geom fb d' :=
  pattern_ext fun s => by
    rw [segmentOn_cell, segmentOn_cell]
    exact bit_writeCell_of_owns_other geom pat fb h ((owns_addr_iff geom d' s d').2 rfl)

/-- A bit of a used slot is read by its cell, and the others are 0 by hypothesis (R107). -/
theorem frameBuffer_eq_of_cells {geom : Geometry} {fb fb' : FrameBuffer} (h : UnusedBitsZero geom fb)
    (h' : UnusedBitsZero geom fb') (hcell : ∀ d, cell geom fb d = cell geom fb' d) : fb = fb' := by
  apply frameBuffer_ext
  intro a
  obtain ⟨u, d, rfl⟩ := exists_eq_slotBit a
  by_cases hu : Unused geom u
  · exact (h u hu d).trans (h' u hu d).symm
  · obtain ⟨s, rfl⟩ : ∃ s, slotOf geom s = u := by simpa [Unused] using hu
    rw [← addr_eq_slotBit, ← segmentOn_cell, ← segmentOn_cell, hcell]

/-- Settles O25, by `segmentOn_cell`, the cells after a write, and `frameBuffer_eq_of_cells`. -/
theorem cellsReadBackAndDetermineTheBuffer : Obligations.CellsReadBackAndDetermineTheBuffer := by
  refine ⟨segmentOn_cell, ?_, fun geom fb fb' h h' hcell => frameBuffer_eq_of_cells h h' hcell⟩
  intro s pos pat d hpos
  exact ⟨_, exec_setPattern_of_digit hpos pat s, cell_writeCell_same s.geom d pat s.fb,
    fun d' hd => cell_writeCell_ne s.geom pat s.fb hd⟩

/-- SET_CHAR at a digit position scatters the looked-up Pattern into that cell and responds (R110). -/
theorem exec_setChar_of_digit {pos : Position} {d : DigitPos} (h : pos.toNat = d.val) (ch : CharCode) (s : State) :
    exec (.setChar pos ch) s =
      .next { s with fb := writeCell s.geom d (glyphLookup s.glyph ch) s.fb, response := some .none } := by
  rw [exec_setChar, exec_setPattern_of_digit h]

/-- Settles O27: the cell reads the looked-up Pattern, which is the ROM's entry or blank. -/
theorem setCharShowsTheGlyphInItsCell : Obligations.SetCharShowsTheGlyphInItsCell := by
  intro s pos ch d hpos
  refine ⟨_, exec_setChar_of_digit hpos ch s, ?_, ?_, ?_, ?_⟩
  · intro k hk
    rw [cell_writeCell_same, glyphLookup_of_supported s.glyph hk]
  · intro hunsupported
    rw [cell_writeCell_same, glyphLookup_of_unsupported s.glyph hunsupported]
    rfl
  · exact fun d' hd => cell_writeCell_ne s.geom _ s.fb hd
  · exact fun a ha => bit_writeCell_other s.geom d _ s.fb ha

/-! ### Two writes -/

/-- A write at a position overwrites an earlier one there. -/
@[simp] theorem writeCell_writeCell_same (geom : Geometry) (d : DigitPos) (pat pat' : Pattern) (fb : FrameBuffer) :
    writeCell geom d pat (writeCell geom d pat' fb) = writeCell geom d pat fb := by
  apply frameBuffer_ext
  intro a
  by_cases ha : ∃ s, addr geom s d = a
  · obtain ⟨s, rfl⟩ := ha
    rw [bit_writeCell_segment, bit_writeCell_segment]
  · have hother : ∀ s, addr geom s d ≠ a := not_exists.1 ha
    rw [bit_writeCell_other _ _ _ _ hother, bit_writeCell_other _ _ _ _ hother, bit_writeCell_other _ _ _ _ hother]

/-- Writes at distinct positions commute (R112): each bit has one owner, and no other position's write touches it. -/
theorem writeCell_comm (geom : Geometry) {d d' : DigitPos} (hd : d ≠ d') (pat pat' : Pattern) (fb : FrameBuffer) :
    writeCell geom d pat (writeCell geom d' pat' fb) = writeCell geom d' pat' (writeCell geom d pat fb) := by
  apply frameBuffer_ext
  intro a
  by_cases ha : ∃ s, addr geom s d = a
  · obtain ⟨s, rfl⟩ := ha
    have howns : owns d (addr geom s d) = true := (owns_addr_iff geom d s d).2 rfl
    rw [bit_writeCell_segment, bit_writeCell_of_owns_other geom pat' _ hd howns, bit_writeCell_segment]
  · have hother : ∀ s, addr geom s d ≠ a := not_exists.1 ha
    rw [bit_writeCell_other _ _ _ _ hother]
    by_cases ha' : ∃ s, addr geom s d' = a
    · obtain ⟨s, rfl⟩ := ha'
      rw [bit_writeCell_segment, bit_writeCell_segment]
    · have hother' : ∀ s, addr geom s d' ≠ a := not_exists.1 ha'
      rw [bit_writeCell_other _ _ _ _ hother', bit_writeCell_other _ _ _ _ hother', bit_writeCell_other _ _ _ _ hother]

/-- What a write of a Pattern at a digit position leaves of the state (R104, R110). -/
def afterWrite (d : DigitPos) (pat : Pattern) (s : State) : State :=
  { s with fb := writeCell s.geom d pat s.fb, response := some .none }

theorem afterWrite_afterWrite_same (d : DigitPos) (pat pat' : Pattern) (s : State) :
    afterWrite d pat (afterWrite d pat' s) = afterWrite d pat s := by
  simp only [afterWrite, writeCell_writeCell_same]

theorem afterWrite_comm {d d' : DigitPos} (hd : d ≠ d') (pat pat' : Pattern) (s : State) :
    afterWrite d pat (afterWrite d' pat' s) = afterWrite d' pat' (afterWrite d pat s) := by
  simp only [afterWrite, writeCell_comm s.geom hd]

/-- A command that writes a cell scatters a Pattern that the glyph ROM alone decides. -/
theorem exec_of_writesCell {i : Instr} {d : DigitPos} (h : WritesCell i d) (rom : GlyphRom) :
    ∃ pat, ∀ s : State, s.glyph = rom → exec i s = .next (afterWrite d pat s) := by
  obtain ⟨pos, hpos, ⟨pat, rfl⟩ | ⟨ch, rfl⟩⟩ := h
  · exact ⟨pat, fun s _ => exec_setPattern_of_digit hpos pat s⟩
  · refine ⟨glyphLookup rom ch, ?_⟩
    rintro s rfl
    exact exec_setChar_of_digit hpos ch s

theorem execAll_pair_of_next {i j : Instr} {s t u : State} (hi : exec i s = .next t) (hj : exec j t = .next u) :
    execAll [i, j] s = .next u := by
  rw [execAll_cons_of_next hi, execAll_cons_of_next hj]
  rfl

/-- Two commands whose order does not matter, from any state. -/
def CommandsCommute (i j : Instr) : Prop := ∀ s : State, execAll [i, j] s = execAll [j, i] s

section TwoWrites
variable {i j : Instr} {d d' : DigitPos}

theorem commandsCommute_of_writesCell (hi : WritesCell i d) (hj : WritesCell j d') (hd : d ≠ d') :
    CommandsCommute i j := by
  intro s
  obtain ⟨p, hp⟩ := exec_of_writesCell hi s.glyph
  obtain ⟨q, hq⟩ := exec_of_writesCell hj s.glyph
  rw [execAll_pair_of_next (hp s rfl) (hq (afterWrite d p s) rfl),
    execAll_pair_of_next (hq s rfl) (hp (afterWrite d' q s) rfl), afterWrite_comm hd]

theorem execAll_later_write_wins (hi : WritesCell i d) (hj : WritesCell j d) (s : State) :
    execAll [i, j] s = execAll [j] s := by
  obtain ⟨p, hp⟩ := exec_of_writesCell hi s.glyph
  obtain ⟨q, hq⟩ := exec_of_writesCell hj s.glyph
  rw [execAll_pair_of_next (hp s rfl) (hq (afterWrite d p s) rfl), afterWrite_afterWrite_same,
    execAll_cons_of_next (hq s rfl)]
  rfl

end TwoWrites

/-- A command that changes nothing more where it has just run can be repeated. -/
theorem execAll_twice {i : Instr} {s t : State} (h : exec i s = .next t) (hagain : exec i t = .next t) :
    execAll [i, i] s = execAll [i] s := by
  rw [execAll_cons_of_next h, execAll_cons_of_next hagain, execAll_cons_of_next h]

theorem digit_or_gt (pos : Position) : (∃ d : DigitPos, pos.toNat = d.val) ∨ 2 < pos.toNat := by
  by_cases h : pos.toNat < 3
  · exact .inl ⟨⟨pos.toNat, h⟩, rfl⟩
  · exact .inr (by omega)

theorem execAll_setPattern_twice (s : State) (pos : Position) (pat : Pattern) :
    execAll [.setPattern pos pat, .setPattern pos pat] s = execAll [.setPattern pos pat] s := by
  obtain ⟨d, hpos⟩ | hgt := digit_or_gt pos
  · have hwrites : WritesCell (.setPattern pos pat) d := ⟨pos, hpos, .inl ⟨pat, rfl⟩⟩
    exact execAll_later_write_wins hwrites hwrites s
  · exact execAll_twice (exec_setPattern_of_gt hgt pat s) (exec_setPattern_of_gt hgt pat _)

theorem execAll_setChar_twice (s : State) (pos : Position) (ch : CharCode) :
    execAll [.setChar pos ch, .setChar pos ch] s = execAll [.setChar pos ch] s := by
  obtain ⟨d, hpos⟩ | hgt := digit_or_gt pos
  · have hwrites : WritesCell (.setChar pos ch) d := ⟨pos, hpos, .inr ⟨ch, rfl⟩⟩
    exact execAll_later_write_wins hwrites hwrites s
  · exact execAll_twice (exec_setPattern_of_gt hgt _ s) (exec_setPattern_of_gt hgt _ _)

/-- Settles O28: a repeated write overwrites itself, a repeated CLEAR zeroes zeros. -/
theorem repeatedWritesAreIdempotent : Obligations.RepeatedWritesAreIdempotent := by
  refine ⟨execAll_setChar_twice, execAll_setPattern_twice, fun s => execAll_twice (exec_clear s) (exec_clear _), ?_⟩
  intro s pos ch d hpos
  exact ⟨_, exec_setChar_of_digit hpos ch s, cell_writeCell_same s.geom d _ s.fb⟩

/-! ### Three writes -/

theorem execAll_answers_next (is : List Instr) (s : State) : ∃ t, execAll is s = .next t := by
  induction is generalizing s with
  | nil => exact ⟨s, rfl⟩
  | cons i is ih =>
    obtain ⟨t, ht⟩ := exec_answers_next i s
    rw [execAll_cons_of_next ht]
    exact ih t

theorem commandsCommute_symm {i j : Instr} (h : CommandsCommute i j) : CommandsCommute j i := fun s => (h s).symm

/-- Commands that commute pairwise can be run in any order. -/
theorem execAll_perm {is js : List Instr} (hperm : is.Perm js) (hcomm : is.Pairwise CommandsCommute) (s : State) :
    execAll is s = execAll js s := by
  induction hperm generalizing s with
  | nil => rfl
  | cons i _ ih =>
    obtain ⟨t, ht⟩ := exec_answers_next i s
    rw [execAll_cons_of_next ht, execAll_cons_of_next ht]
    exact ih (List.pairwise_cons.1 hcomm).2 t
  | swap i j is =>
    have hji : execAll [j, i] s = execAll [i, j] s := (List.pairwise_cons.1 hcomm).1 i List.mem_cons_self s
    obtain ⟨t, ht⟩ := execAll_answers_next [j, i] s
    exact (execAll_append_of_next ht is).trans (execAll_append_of_next (hji ▸ ht) is).symm
  | trans hfirst _ ihfirst ihsecond =>
    rw [ihfirst hcomm, ihsecond ((hfirst.pairwise_iff commandsCommute_symm).1 hcomm)]

/-- A Pattern into each of the three cells, left to right. -/
def writeCells (geom : Geometry) (p q r : Pattern) (fb : FrameBuffer) : FrameBuffer :=
  writeCell geom 2 r (writeCell geom 1 q (writeCell geom 0 p fb))

section WriteCells
variable (geom : Geometry) (p q r : Pattern) (fb : FrameBuffer)

theorem cell_writeCells_zero : cell geom (writeCells geom p q r fb) 0 = p := by
  rw [writeCells, cell_writeCell_ne _ _ _ (by decide), cell_writeCell_ne _ _ _ (by decide), cell_writeCell_same]

theorem cell_writeCells_one : cell geom (writeCells geom p q r fb) 1 = q := by
  rw [writeCells, cell_writeCell_ne _ _ _ (by decide), cell_writeCell_same]

theorem cell_writeCells_two : cell geom (writeCells geom p q r fb) 2 = r := cell_writeCell_same geom 2 r _

theorem unusedBitsZero_writeCells {geom : Geometry} {fb : FrameBuffer} (h : UnusedBitsZero geom fb) :
    UnusedBitsZero geom (writeCells geom p q r fb) :=
  unusedBitsZero_writeCell (unusedBitsZero_writeCell (unusedBitsZero_writeCell h 0 p) 1 q) 2 r

theorem execAll_setPattern_each (s : State) :
    execAll [.setPattern 0#4 p, .setPattern 1#4 q, .setPattern 2#4 r] s =
      .next { s with fb := writeCells s.geom p q r s.fb, response := some .none } := by
  rw [execAll_cons_of_next (exec_setPattern_of_digit (pos := 0#4) (d := 0) rfl p s),
    execAll_cons_of_next (exec_setPattern_of_digit (pos := 1#4) (d := 1) rfl q _),
    execAll_cons_of_next (exec_setPattern_of_digit (pos := 2#4) (d := 2) rfl r _)]
  rfl

end WriteCells

section SetCharEach
variable (x y z : CharCode)

theorem execAll_setChar_each (s : State) :
    execAll [.setChar 0#4 x, .setChar 1#4 y, .setChar 2#4 z] s =
      .next { s with
        fb := writeCells s.geom (glyphLookup s.glyph x) (glyphLookup s.glyph y) (glyphLookup s.glyph z) s.fb
        response := some .none } := by
  rw [execAll_cons_of_next (exec_setChar_of_digit (pos := 0#4) (d := 0) rfl x s),
    execAll_cons_of_next (exec_setChar_of_digit (pos := 1#4) (d := 1) rfl y _),
    execAll_cons_of_next (exec_setChar_of_digit (pos := 2#4) (d := 2) rfl z _)]
  rfl

theorem setChar_each_pairwise_commute :
    [Instr.setChar 0#4 x, .setChar 1#4 y, .setChar 2#4 z].Pairwise CommandsCommute := by
  have hx : WritesCell (.setChar 0#4 x) 0 := ⟨0#4, rfl, .inr ⟨x, rfl⟩⟩
  have hy : WritesCell (.setChar 1#4 y) 1 := ⟨1#4, rfl, .inr ⟨y, rfl⟩⟩
  have hz : WritesCell (.setChar 2#4 z) 2 := ⟨2#4, rfl, .inr ⟨z, rfl⟩⟩
  have hxy := commandsCommute_of_writesCell hx hy (by decide)
  have hxz := commandsCommute_of_writesCell hx hz (by decide)
  have hyz := commandsCommute_of_writesCell hy hz (by decide)
  simp [hxy, hxz, hyz]

end SetCharEach

/-- Settles O29: two writes by their scatters, three by permuting commuting commands (`execAll_perm`). -/
theorem writesAtDistinctPositionsCommute : Obligations.WritesAtDistinctPositionsCommute := by
  refine ⟨fun s i j d d' hi hj hd => commandsCommute_of_writesCell hi hj hd s,
    fun s i j d hi hj => execAll_later_write_wins hi hj s, ?_⟩
  intro s x y z is hcleared hperm
  have hrun : execAll is s = execAll [.setChar 0#4 x, .setChar 1#4 y, .setChar 2#4 z] s :=
    (execAll_perm hperm.symm (setChar_each_pairwise_commute x y z) s).symm
  have hzero : UnusedBitsZero s.geom s.fb := hcleared ▸ unusedBitsZero_zero s.geom
  exact ⟨_, hrun.trans (execAll_setChar_each x y z s), unusedBitsZero_writeCells _ _ _ hzero, cell_writeCells_zero _ _ _ _ _,
    cell_writeCells_one _ _ _ _ _, cell_writeCells_two _ _ _ _ _⟩

/-! ### The reachable frame buffers -/

theorem reachable_of_run {start : State} {k : Nat} {s t : State} (hs : Reachable start s)
    (hrun : Host.Core.run core k s = .next t) : Reachable start t := by
  induction k generalizing s with
  | zero =>
    obtain rfl : s = t := Host.Outcome.next.inj hrun
    exact hs
  | succ k ih =>
    obtain ⟨s', hstep⟩ := step_answers_next s
    exact ih (hs.step hstep) ((run_succ_of_next (M := core) hstep k).symm.trans hrun)

theorem map_decode_map_encode {is : List Instr} (hwf : ∀ i ∈ is, i.wellFormed = true) :
    (is.map encode).map decode = is := by
  calc (is.map encode).map decode
    _ = is.map id := by rw [List.map_map]; exact List.map_congr_left fun i hi => decode_encode (hwf i hi)
    _ = is := List.map_id is

/-- Well-formed commands can be presented as words, so what they leave is reachable. -/
theorem reachable_of_execAll {start s t : State} {is : List Instr} (hs : Reachable start s) (hport : s.port = [])
    (hwf : ∀ i ∈ is, i.wellFormed = true) (hexec : execAll is s = .next t) : Reachable start t := by
  have hpresented : Reachable start { s with port := (is.map encode).map .command } := by
    have h := hs.present ((is.map encode).map .command)
    rwa [hport, List.nil_append] at h
  have hempty : ({ s with port := [] } : State) = s := by rw [← hport]
  have hrun := commandsTakeEffectInPresentedOrder (is.map encode) s
  rw [map_decode_map_encode hwf, hempty, hexec] at hrun
  exact reachable_of_run hpresented hrun

/-- Writing a buffer's own cells over a cleared one gives the buffer back (R116). -/
theorem writeCells_cells_zero {geom : Geometry} {fb : FrameBuffer} (h : UnusedBitsZero geom fb) :
    writeCells geom (cell geom fb 0) (cell geom fb 1) (cell geom fb 2) FrameBuffer.zero = fb := by
  apply frameBuffer_eq_of_cells (unusedBitsZero_writeCells _ _ _ (unusedBitsZero_zero geom)) h
  intro d
  fin_cases d
  · exact cell_writeCells_zero _ _ _ _ _
  · exact cell_writeCells_one _ _ _ _ _
  · exact cell_writeCells_two _ _ _ _ _

/-- Settles O33: the invariant gives one direction, and three SET_PATTERNs of a buffer's own cells the other. -/
theorem reachableBuffersAreThoseWithUnusedBitsZero : Obligations.ReachableBuffersAreThoseWithUnusedBitsZero := by
  intro geom glyph w fb
  have hwrites : UnusedBitsZero geom fb →
      ∃ t, execAll [.setPattern 0#4 (cell geom fb 0), .setPattern 1#4 (cell geom fb 1), .setPattern 2#4 (cell geom fb 2)]
        (State.resetWith geom glyph w) = .next t ∧ t.fb = fb := fun h =>
    ⟨_, execAll_setPattern_each _ _ _ (State.resetWith geom glyph w), writeCells_cells_zero h⟩
  refine ⟨⟨?_, ?_⟩, hwrites⟩
  · rintro ⟨s, hreach, rfl⟩
    exact unusedBitsZero_of_reachable hreach
  · intro h
    obtain ⟨t, hexec, hfb⟩ := hwrites h
    exact ⟨t, reachable_of_execAll Reachable.start rfl (by simp [Instr.wellFormed]) hexec, hfb⟩

end Sys2Proof.Machine

/-! SUPPORT. Letter case (40_glyph_lookup.md R85). -/

namespace Sys2Proof.Machine

/-- The ASCII upper-case codes. -/
def IsUpperCode (n : Nat) : Prop := 0x41 ≤ n ∧ n ≤ 0x5A

theorem isLowerCode_add_of_upper {ch : CharCode} (h : IsUpperCode ch.toNat) : IsLowerCode (ch + 0x20#21).toNat := by
  obtain ⟨hlow, hhigh⟩ := h
  unfold IsLowerCode
  bv_omega

theorem not_isLowerCode_of_upper {n : Nat} (h : IsUpperCode n) : ¬ IsLowerCode n := by
  unfold IsUpperCode at h
  unfold IsLowerCode
  omega

theorem glyphLookup_lower_eq_upper (rom : GlyphRom) {ch : CharCode} (h : IsUpperCode ch.toNat) :
    glyphLookup rom (ch + 0x20#21) = glyphLookup rom ch := by
  rw [glyphLookup_of_lower rom (isLowerCode_add_of_upper h), BitVec.add_sub_cancel]

theorem glyphLookup_unsupported_letter (rom : GlyphRom) {ch : CharCode} (h : IsUpperCode ch.toNat)
    (hunsupported : ∀ k, supportedCode k ≠ ch) :
    glyphLookup rom ch = 0#7 ∧ glyphLookup rom (ch + 0x20#21) = 0#7 := by
  have hupper : glyphLookup rom ch = 0#7 :=
    glyphLookup_of_unsupported rom (by rwa [foldCase_of_not_lower (not_isLowerCode_of_upper h)])
  exact ⟨hupper, (glyphLookup_lower_eq_upper rom h).trans hupper⟩

/-- Settles O35, through the folding; `Z` is a letter outside SUPPORTED. -/
theorem letterCaseDoesNotMatter : Obligations.LetterCaseDoesNotMatter := by
  refine ⟨fun rom ch hlow hhigh => glyphLookup_lower_eq_upper rom ⟨hlow, hhigh⟩,
    fun rom ch hlow hhigh => glyphLookup_unsupported_letter rom ⟨hlow, hhigh⟩, fun rom => ?_⟩
  have hZ : IsUpperCode (0x5A#21).toNat := by unfold IsUpperCode; decide
  exact glyphLookup_unsupported_letter rom hZ (by intro k; cases k <;> decide)

end Sys2Proof.Machine

/-! SUPPORT. The assembler: the value of an operand in each spelling, the words of R71's table as numbers, and the
decoding of an assembled line (30_encoding.md R66, R68, R71, R72). -/

namespace Sys2Proof.Machine

/-! ### Operands -/

theorem asmField_of_ge {width n : Nat} (h : ¬ n < 2 ^ width) : asmField width n = none := if_neg h

/-- A number in range is the operand's value, and no other is accepted (R71). -/
theorem asmField_map_toNat (width n : Nat) :
    (asmField width n).map BitVec.toNat = if n < 2 ^ width then some n else none := by
  by_cases h : n < 2 ^ width
  · rw [asmField_of_lt h, if_pos h, Option.map_some, BitVec.toNat_ofNat, Nat.mod_eq_of_lt h]
  · rw [asmField_of_ge h, if_neg h, Option.map_none]

theorem asmCh_quoted_map_toNat (c : Char) : (asmCh (.quoted c)).map BitVec.toNat = some c.toNat := by
  rw [asmCh, asmField_map_toNat, if_pos (char_toNat_lt c)]

/-- The Pattern of a segment set as a number (R84). -/
theorem toNat_patternOf (ss : List Segment) :
    (patternOf ss).toNat = ss.foldr (fun s v => 1 <<< (segmentIndex s).val ||| v) 0 := by
  induction ss with
  | nil => rfl
  | cons s ss ih =>
    have hbit : (1#7 <<< (segmentIndex s).val).toNat = 1 <<< (segmentIndex s).val := by cases s <;> rfl
    rw [List.foldr_cons, ← ih, ← hbit]
    exact BitVec.toNat_or _ _

/-! ### Words as numbers -/

theorem eq_ofNat_of_toNat_eq {w : Word} {n : Nat} (h : w.toNat = n) : w = BitVec.ofNat 32 n := by
  rw [← h, BitVec.ofNat_toNat, BitVec.setWidth_eq]

/-- Fields above a gap of ignored bits: the gap and the bits below it shift them up. -/
theorem toNat_append_gap {h g n : Nat} (hi : BitVec h) (lo : BitVec n) :
    (hi ++ 0#g ++ lo).toNat = hi.toNat <<< (g + n) ||| lo.toNat := by
  rw [BitVec.toNat_append, BitVec.toNat_append, BitVec.toNat_ofNat, Nat.zero_mod, Nat.or_zero, Nat.shiftLeft_add]

/-- The layout of formats PP and PC (R62): the opcode, a position, a gap and an operand. -/
theorem toNat_position_layout {g n : Nat} (op pos : BitVec 4) (operand : BitVec n) :
    (op ++ pos ++ 0#g ++ operand).toNat = op.toNat <<< (4 + (g + n)) ||| pos.toNat <<< (g + n) ||| operand.toNat := by
  rw [toNat_append_gap, BitVec.toNat_append, Nat.shiftLeft_or_distrib, ← Nat.shiftLeft_add]

theorem encode_setPattern_eq (pos : Position) (pat : Pattern) :
    encode (.setPattern pos pat) = BitVec.ofNat 32 (0x20000000 ||| pos.toNat <<< 24 ||| pat.toNat) :=
  eq_ofNat_of_toNat_eq (toNat_position_layout (g := 17) 0x2#4 pos pat)

theorem encode_setChar_eq (pos : Position) (ch : CharCode) :
    encode (.setChar pos ch) = BitVec.ofNat 32 (0x30000000 ||| pos.toNat <<< 24 ||| ch.toNat) :=
  eq_ofNat_of_toNat_eq (toNat_position_layout (g := 3) 0x3#4 pos ch)

theorem encode_lookup_eq (ch : CharCode) : encode (.lookup ch) = BitVec.ofNat 32 (0x40000000 ||| ch.toNat) :=
  eq_ofNat_of_toNat_eq (toNat_append_gap (g := 7) 0x4#4 ch)

theorem encode_readLine_eq (com : BitVec 2) :
    encode (.readLine com) = BitVec.ofNat 32 (0x50000000 ||| com.toNat <<< 24) := by
  revert com
  decide

/-! ### The words of a line -/

/-- Whatever the spelling, SET_PATTERN is refused for its position or its Pattern, or its word is the table's. -/
theorem assembleWords_setPattern (pos : Nat) (pat : PatSpelling) :
    assembleWords (.setPattern pos pat) = if pos < 2 ^ 4 then
      ((asmPat pat).map BitVec.toNat).map fun v => [BitVec.ofNat 32 (0x20000000 ||| pos <<< 24 ||| v)] else none := by
  rw [assembleWords, assemble, asmSetPattern]
  by_cases h : pos < 2 ^ 4
  · rw [asmField_of_lt h, if_pos h]
    cases asmPat pat with
    | none => rfl
    | some q =>
      have hword := encode_setPattern_eq (BitVec.ofNat 4 pos) q
      rw [BitVec.toNat_ofNat, Nat.mod_eq_of_lt h] at hword
      exact congrArg (fun w => some [w]) hword
  · rw [asmField_of_ge h, if_neg h]
    rfl

theorem assembleWords_setChar (pos : Nat) (ch : ChSpelling) :
    assembleWords (.setChar pos ch) = if pos < 2 ^ 4 then
      ((asmCh ch).map BitVec.toNat).map fun v => [BitVec.ofNat 32 (0x30000000 ||| pos <<< 24 ||| v)] else none := by
  rw [assembleWords, assemble, asmSetChar]
  by_cases h : pos < 2 ^ 4
  · rw [asmField_of_lt h, if_pos h]
    cases asmCh ch with
    | none => rfl
    | some q =>
      have hword := encode_setChar_eq (BitVec.ofNat 4 pos) q
      rw [BitVec.toNat_ofNat, Nat.mod_eq_of_lt h] at hword
      exact congrArg (fun w => some [w]) hword
  · rw [asmField_of_ge h, if_neg h]
    rfl

theorem assembleWords_lookup (ch : ChSpelling) :
    assembleWords (.lookup ch) = ((asmCh ch).map BitVec.toNat).map fun v => [BitVec.ofNat 32 (0x40000000 ||| v)] := by
  rw [assembleWords, assemble]
  cases asmCh ch with
  | none => rfl
  | some q => exact congrArg (fun w => some [w]) (encode_lookup_eq q)

theorem assembleWords_readLine (com : Nat) :
    assembleWords (.readLine com) =
      ((asmField 2 com).map BitVec.toNat).map fun v => [BitVec.ofNat 32 (0x50000000 ||| v <<< 24)] := by
  rw [assembleWords, assemble]
  cases asmField 2 com with
  | none => rfl
  | some q => exact congrArg (fun w => some [w]) (encode_readLine_eq q)

/-- The assembler refuses exactly the reserved opcodes (R68). -/
theorem asmWord_eq_none_iff (i : Instr) : asmWord i = none ↔ i = .reserved7 ∨ ∃ op, i = .reserved8to15 op := by
  cases i <;> simp [asmWord]

/-- Settles O47: each command's words by its lemma above, and each spelling's value. -/
theorem assemblerWordsFollowTheSyntaxTable : Obligations.AssemblerWordsFollowTheSyntaxTable := by
  refine ⟨⟨rfl, rfl, rfl⟩, ?_, ?_, ?_, ?_, ?_, ?_, ?_, asmWord_eq_none_iff⟩
  · intro pos pat
    rw [assembleWords_setPattern, asmPat, asmField_map_toNat, Option.map_if, ← ite_and]
    exact if_congr (by omega) rfl rfl
  · intro pos ss
    rw [assembleWords_setPattern, asmPat, Option.map_some, toNat_patternOf]
    exact if_congr (by omega) rfl rfl
  · intro pos ch
    rw [assembleWords_setChar, asmCh, asmField_map_toNat, Option.map_if, ← ite_and]
    exact if_congr (by omega) rfl rfl
  · intro pos c
    rw [assembleWords_setChar, asmCh_quoted_map_toNat]
    exact if_congr (by omega) rfl rfl
  · intro ch
    rw [assembleWords_lookup, asmCh, asmField_map_toNat, Option.map_if]
    exact if_congr (by omega) rfl rfl
  · intro c
    rw [assembleWords_lookup, asmCh_quoted_map_toNat]
    rfl
  · intro com
    rw [assembleWords_readLine, asmField_map_toNat, Option.map_if]
    exact if_congr (by omega) rfl rfl

/-! ### Assembled words decode to their commands -/

/-- A command the assembler has a word for. -/
def Assemblable (i : Instr) : Prop := asmWord i = some (encode i)

theorem wellFormed_of_assemblable {i : Instr} (h : Assemblable i) : i.wellFormed = true := by
  cases i with
  | reserved8to15 op => cases h
  | _ => rfl

theorem assemblable_of_asmSetPattern {pos : Nat} {pat : PatSpelling} {i : Instr} (h : asmSetPattern pos pat = some i) :
    Assemblable i := by
  simp only [asmSetPattern, Option.bind_eq_bind, Option.bind_eq_some_iff, Option.pure_def, Option.some.injEq] at h
  obtain ⟨p, -, q, -, rfl⟩ := h
  rfl

theorem assemblable_of_asmSetChar {pos : Nat} {ch : ChSpelling} {i : Instr} (h : asmSetChar pos ch = some i) :
    Assemblable i := by
  simp only [asmSetChar, Option.bind_eq_bind, Option.bind_eq_some_iff, Option.pure_def, Option.some.injEq] at h
  obtain ⟨p, -, q, -, rfl⟩ := h
  rfl

/-- A line of one command, accepted when its operands are. -/
theorem forall_mem_of_map_singleton {α : Type} {o : Option α} {f : α → Instr} {is : List Instr}
    (hf : ∀ a, o = some a → Assemblable (f a)) (h : o.map (fun a => [f a]) = some is) : ∀ i ∈ is, Assemblable i := by
  obtain ⟨a, ha, rfl⟩ := Option.map_eq_some_iff.1 h
  exact List.forall_mem_singleton.2 (hf a ha)

/-- No line stands for a reserved command (R68). -/
theorem assemblable_of_assemble {l : AsmLine} {is : List Instr} (h : assemble l = some is) : ∀ i ∈ is, Assemblable i := by
  cases l with
  | setPattern pos pat => exact forall_mem_of_map_singleton (fun _ => assemblable_of_asmSetPattern) h
  | setChar pos ch => exact forall_mem_of_map_singleton (fun _ => assemblable_of_asmSetChar) h
  | lookup ch => exact forall_mem_of_map_singleton (f := .lookup) (fun _ _ => rfl) h
  | readLine com => exact forall_mem_of_map_singleton (f := .readLine) (fun _ _ => rfl) h
  | blank pos => exact forall_mem_of_map_singleton (fun _ => assemblable_of_asmSetPattern) h
  | fill pos => exact forall_mem_of_map_singleton (fun _ => assemblable_of_asmSetPattern) h
  | showChars x y z =>
    rw [assemble, asmShow_eq] at h
    cases h
    simp [Assemblable, asmWord]
  | showFlush x y z =>
    rw [assemble, asmShow_eq] at h
    cases h
    simp [Assemblable, asmWord]
  | _ => cases h; simp [Assemblable, asmWord]

theorem asmWords_of_assemblable {is : List Instr} (h : ∀ i ∈ is, Assemblable i) : asmWords is = some (is.map encode) := by
  induction is with
  | nil => rfl
  | cons i is ih =>
    obtain ⟨hi, his⟩ := List.forall_mem_cons.1 h
    rw [asmWords, hi, ih his]
    rfl

/-- Settles O48: the words are the encodings, which decode to the commands and have their ignored bits 0. -/
theorem assembledWordsDecodeToTheirCommands : Obligations.AssembledWordsDecodeToTheirCommands := by
  intro l is h
  have hall := assemblable_of_assemble h
  refine ⟨is.map encode, ?_, map_decode_map_encode fun i hi => wellFormed_of_assemblable (hall i hi), ?_⟩
  · rw [assembleWords, h]
    exact asmWords_of_assemblable hall
  · exact List.forall_mem_map.2 fun i _ => encode_and_formatMask i

/-! ### Comments -/

/-- A character that opens neither a comment nor a quote; the quotes are characters 0x27 and 0x22. -/
def IsPlain (c : Char) : Prop := c ≠ ';' ∧ c ≠ Char.ofNat 0x27 ∧ c ≠ Char.ofNat 0x22

theorem tokens_semicolon (acc comment : List Char) : tokens acc (';' :: comment) = tokens acc [] := by
  rw [tokens, tokens]

/-- A plain character is read without looking at what follows it, which is then read on its own. -/
theorem tokens_cons_congr {c : Char} {rest rest' : List Char} (hc : IsPlain c)
    (hrest : ∀ acc, tokens acc rest = tokens acc rest') (acc : List Char) :
    tokens acc (c :: rest) = tokens acc (c :: rest') := by
  obtain ⟨hcomment, hquote, hwindow⟩ := hc
  rw [tokens, tokens, hrest [], hrest (c :: acc)]
  all_goals
    intros
    contradiction

/-- Plain code is read up to a comment as if the line ended there. -/
theorem tokens_append_comment {code : List Char} (hplain : ∀ c ∈ code, IsPlain c) (acc comment : List Char) :
    tokens acc (code ++ ';' :: comment) = tokens acc code := by
  induction code generalizing acc with
  | nil => exact tokens_semicolon acc comment
  | cons c code ih =>
    obtain ⟨hc, hcode⟩ := List.forall_mem_cons.1 hplain
    exact tokens_cons_congr hc (ih hcode) acc

/-- Settles O50: a line is read through its tokens alone. -/
theorem commentsAreNotRead : Obligations.CommentsAreNotRead := by
  intro code comment hplain
  rw [parseLine, parseLine, tokens_append_comment hplain]

end Sys2Proof.Machine
